-- ==== Sys2Proof/Word.lean ====
section
/-! DEFINITION. The word types of the core: Word32 (R6, R17), the arena's byte (R28) and a register index (R7). -/

namespace Sys2Proof

/-- A 32-bit value: a register, the pc, an address or an instruction word (R6, R17, R80). -/
abbrev Word := BitVec 32

/-- One byte of the arena (R28). -/
abbrev Byte := BitVec 8

/-- A register index, 5 bits, naming x0 to x31 directly (R7, R89). -/
abbrev RegIdx := BitVec 5

end Sys2Proof
end

