-- ==== Sys2Proof/Syntax.lean ====
section
/-! DEFINITION. The 37 instructions of the reduced encoding (R3), one constructor per row of spec/opcode_table.json, in
the table's order. Operands are those of R89: register indices and the immediate of the format (R82 to R88), held at the
width the format gives it before sign extension. A branch offset is the 13-bit and a JAL offset the 21-bit byte distance,
bit 0 included (R85, R87); `WellFormed` says that bit is 0. -/

namespace Sys2Proof

inductive Instr where
  /-- R112 -/
  | add (rd rs1 rs2 : RegIdx)
  /-- R113 -/
  | sub (rd rs1 rs2 : RegIdx)
  /-- R114 -/
  | sll (rd rs1 rs2 : RegIdx)
  /-- R115 -/
  | slt (rd rs1 rs2 : RegIdx)
  /-- R116 -/
  | sltu (rd rs1 rs2 : RegIdx)
  /-- R117 -/
  | xor (rd rs1 rs2 : RegIdx)
  /-- R118 -/
  | srl (rd rs1 rs2 : RegIdx)
  /-- R119 -/
  | sra (rd rs1 rs2 : RegIdx)
  /-- R120 -/
  | or (rd rs1 rs2 : RegIdx)
  /-- R121 -/
  | and (rd rs1 rs2 : RegIdx)
  /-- R122 -/
  | addi (rd rs1 : RegIdx) (imm : BitVec 12)
  /-- R123 -/
  | slti (rd rs1 : RegIdx) (imm : BitVec 12)
  /-- R124 -/
  | sltiu (rd rs1 : RegIdx) (imm : BitVec 12)
  /-- R125 -/
  | xori (rd rs1 : RegIdx) (imm : BitVec 12)
  /-- R126 -/
  | ori (rd rs1 : RegIdx) (imm : BitVec 12)
  /-- R127 -/
  | andi (rd rs1 : RegIdx) (imm : BitVec 12)
  /-- R128 -/
  | slli (rd rs1 : RegIdx) (shamt : BitVec 5)
  /-- R129 -/
  | srli (rd rs1 : RegIdx) (shamt : BitVec 5)
  /-- R130 -/
  | srai (rd rs1 : RegIdx) (shamt : BitVec 5)
  /-- R131 -/
  | lui (rd : RegIdx) (imm : BitVec 20)
  /-- R132 -/
  | auipc (rd : RegIdx) (imm : BitVec 20)
  /-- R151 -/
  | beq (rs1 rs2 : RegIdx) (offset : BitVec 13)
  /-- R152 -/
  | bne (rs1 rs2 : RegIdx) (offset : BitVec 13)
  /-- R153 -/
  | blt (rs1 rs2 : RegIdx) (offset : BitVec 13)
  /-- R154 -/
  | bge (rs1 rs2 : RegIdx) (offset : BitVec 13)
  /-- R155 -/
  | bltu (rs1 rs2 : RegIdx) (offset : BitVec 13)
  /-- R156 -/
  | bgeu (rs1 rs2 : RegIdx) (offset : BitVec 13)
  /-- R157 -/
  | jal (rd : RegIdx) (offset : BitVec 21)
  /-- R158 -/
  | jalr (rd rs1 : RegIdx) (imm : BitVec 12)
  /-- R161 -/
  | lb (rd rs1 : RegIdx) (imm : BitVec 12)
  /-- R162 -/
  | lh (rd rs1 : RegIdx) (imm : BitVec 12)
  /-- R163 -/
  | lw (rd rs1 : RegIdx) (imm : BitVec 12)
  /-- R164 -/
  | lbu (rd rs1 : RegIdx) (imm : BitVec 12)
  /-- R165 -/
  | lhu (rd rs1 : RegIdx) (imm : BitVec 12)
  /-- R166: stores the low bits of `rs2` at the base `rs1` -/
  | sb (rs2 rs1 : RegIdx) (imm : BitVec 12)
  /-- R167 -/
  | sh (rs2 rs1 : RegIdx) (imm : BitVec 12)
  /-- R168 -/
  | sw (rs2 rs1 : RegIdx) (imm : BitVec 12)
deriving DecidableEq, Repr

end Sys2Proof
end

