-- ==== Sys2Proof/WellFormed.lean ====
section
/-! DEFINITION. Which terms of `Instr` the encoding can hold: every one but a branch or a JAL with an odd offset, since
the encodings of those offsets have no bit 0 (R85, R87: "always even"). -/

namespace Sys2Proof

/-- An SB-format offset is even (R85). -/
def evenBranch (offset : BitVec 13) : Bool := offset.extractLsb' 0 1 == 0#1

/-- A UJ-format offset is even (R87). -/
def evenJump (offset : BitVec 21) : Bool := offset.extractLsb' 0 1 == 0#1

def Instr.wellFormed : Instr → Bool
  | .beq _ _ offset | .bne _ _ offset | .blt _ _ offset | .bge _ _ offset | .bltu _ _ offset | .bgeu _ _ offset =>
    evenBranch offset
  | .jal _ offset => evenJump offset
  | .add _ _ _ | .sub _ _ _ | .sll _ _ _ | .slt _ _ _ | .sltu _ _ _ | .xor _ _ _ | .srl _ _ _ | .sra _ _ _ | .or _ _ _
  | .and _ _ _ | .addi _ _ _ | .slti _ _ _ | .sltiu _ _ _ | .xori _ _ _ | .ori _ _ _ | .andi _ _ _ | .slli _ _ _
  | .srli _ _ _ | .srai _ _ _ | .lui _ _ | .auipc _ _ | .jalr _ _ _ | .lb _ _ _ | .lh _ _ _ | .lw _ _ _ | .lbu _ _ _
  | .lhu _ _ _ | .sb _ _ _ | .sh _ _ _ | .sw _ _ _ => true

end Sys2Proof
end

