-- ==== Sys2Proof/Decode.lean ====
section
/-! DEFINITION. The decoder of the reduced encoding (30_encoding.md R80 to R99), total on any word and any bytes and
rejecting by name; the encoder, written from the same tables; and the opcode table's match and mask of each row. -/

namespace Sys2Proof

/-- Why a word names no instruction. The hardware has one fault for all of them, `IllegalOpcode` (R98); the split is the
model's own (log 20). -/
inductive DecodeError where
  /-- fewer than four bytes are given: no word (R80) -/
  | truncated
  /-- inst[6:0] is none of the nine opcodes of R91 -/
  | opcode (w : Word)
  /-- the opcode is recognised and the funct3 is not (R94 to R97) -/
  | funct3 (w : Word)
  /-- opcode and funct3 are recognised and the function selector inst[31:25] is not (R92, R93) -/
  | funct7 (w : Word)
deriving DecidableEq, Repr

/-! ## Fields (R81) -/

def opcodeOf (w : Word) : BitVec 7 := w.extractLsb' 0 7
def rdOf (w : Word) : RegIdx := w.extractLsb' 7 5
def funct3Of (w : Word) : BitVec 3 := w.extractLsb' 12 3
def rs1Of (w : Word) : RegIdx := w.extractLsb' 15 5
def rs2Of (w : Word) : RegIdx := w.extractLsb' 20 5
def funct7Of (w : Word) : BitVec 7 := w.extractLsb' 25 7

/-! ## Immediates, before sign extension (R83 to R88) -/

/-- inst[31:20] (R83). -/
def immIOf (w : Word) : BitVec 12 := w.extractLsb' 20 12
/-- {inst[31:25], inst[11:7]} (R84). -/
def immSOf (w : Word) : BitVec 12 := w.extractLsb' 25 7 ++ w.extractLsb' 7 5
/-- {inst[31], inst[7], inst[30:25], inst[11:8], 0} (R85). -/
def immBOf (w : Word) : BitVec 13 :=
  w.extractLsb' 31 1 ++ w.extractLsb' 7 1 ++ w.extractLsb' 25 6 ++ w.extractLsb' 8 4 ++ 0#1
/-- inst[31:12] (R86). -/
def immUOf (w : Word) : BitVec 20 := w.extractLsb' 12 20
/-- {inst[31], inst[19:12], inst[20], inst[30:21], 0} (R87). -/
def immJOf (w : Word) : BitVec 21 :=
  w.extractLsb' 31 1 ++ w.extractLsb' 12 8 ++ w.extractLsb' 20 1 ++ w.extractLsb' 21 10 ++ 0#1
/-- inst[24:20] (R88). -/
def shamtOf (w : Word) : BitVec 5 := w.extractLsb' 20 5

/-! ## Dispatch (R91 to R97) -/

/-- OP, opcode 0x33 (R92): SLL does not look at funct7. -/
def decodeOp (w : Word) : Except DecodeError Instr :=
  let rd := rdOf w
  let rs1 := rs1Of w
  let rs2 := rs2Of w
  match funct3Of w with
  | 0b000#3 =>
    match funct7Of w with
    | 0b0000000#7 => .ok (.add rd rs1 rs2)
    | 0b0100000#7 => .ok (.sub rd rs1 rs2)
    | _ => .error (.funct7 w)
  | 0b001#3 => .ok (.sll rd rs1 rs2)
  | 0b010#3 => if funct7Of w = 0#7 then .ok (.slt rd rs1 rs2) else .error (.funct7 w)
  | 0b011#3 => if funct7Of w = 0#7 then .ok (.sltu rd rs1 rs2) else .error (.funct7 w)
  | 0b100#3 => if funct7Of w = 0#7 then .ok (.xor rd rs1 rs2) else .error (.funct7 w)
  | 0b101#3 =>
    match funct7Of w with
    | 0b0000000#7 => .ok (.srl rd rs1 rs2)
    | 0b0100000#7 => .ok (.sra rd rs1 rs2)
    | _ => .error (.funct7 w)
  | 0b110#3 => if funct7Of w = 0#7 then .ok (.or rd rs1 rs2) else .error (.funct7 w)
  | _ => if funct7Of w = 0#7 then .ok (.and rd rs1 rs2) else .error (.funct7 w)

/-- OP-IMM, opcode 0x13 (R93): SLLI does not look at inst[31:25]. -/
def decodeOpImm (w : Word) : Except DecodeError Instr :=
  let rd := rdOf w
  let rs1 := rs1Of w
  match funct3Of w with
  | 0b000#3 => .ok (.addi rd rs1 (immIOf w))
  | 0b001#3 => .ok (.slli rd rs1 (shamtOf w))
  | 0b010#3 => .ok (.slti rd rs1 (immIOf w))
  | 0b011#3 => .ok (.sltiu rd rs1 (immIOf w))
  | 0b100#3 => .ok (.xori rd rs1 (immIOf w))
  | 0b101#3 =>
    match funct7Of w with
    | 0b0000000#7 => .ok (.srli rd rs1 (shamtOf w))
    | 0b0100000#7 => .ok (.srai rd rs1 (shamtOf w))
    | _ => .error (.funct7 w)
  | 0b110#3 => .ok (.ori rd rs1 (immIOf w))
  | _ => .ok (.andi rd rs1 (immIOf w))

/-- LOAD, opcode 0x03 (R94). -/
def decodeLoad (w : Word) : Except DecodeError Instr :=
  let rd := rdOf w
  let rs1 := rs1Of w
  match funct3Of w with
  | 0b000#3 => .ok (.lb rd rs1 (immIOf w))
  | 0b001#3 => .ok (.lh rd rs1 (immIOf w))
  | 0b010#3 => .ok (.lw rd rs1 (immIOf w))
  | 0b100#3 => .ok (.lbu rd rs1 (immIOf w))
  | 0b101#3 => .ok (.lhu rd rs1 (immIOf w))
  | _ => .error (.funct3 w)

/-- STORE, opcode 0x23 (R95). -/
def decodeStore (w : Word) : Except DecodeError Instr :=
  match funct3Of w with
  | 0b000#3 => .ok (.sb (rs2Of w) (rs1Of w) (immSOf w))
  | 0b001#3 => .ok (.sh (rs2Of w) (rs1Of w) (immSOf w))
  | 0b010#3 => .ok (.sw (rs2Of w) (rs1Of w) (immSOf w))
  | _ => .error (.funct3 w)

/-- BRANCH, opcode 0x63 (R96). -/
def decodeBranch (w : Word) : Except DecodeError Instr :=
  let rs1 := rs1Of w
  let rs2 := rs2Of w
  match funct3Of w with
  | 0b000#3 => .ok (.beq rs1 rs2 (immBOf w))
  | 0b001#3 => .ok (.bne rs1 rs2 (immBOf w))
  | 0b100#3 => .ok (.blt rs1 rs2 (immBOf w))
  | 0b101#3 => .ok (.bge rs1 rs2 (immBOf w))
  | 0b110#3 => .ok (.bltu rs1 rs2 (immBOf w))
  | 0b111#3 => .ok (.bgeu rs1 rs2 (immBOf w))
  | _ => .error (.funct3 w)

/-- JALR, opcode 0x67 (R97): only funct3 000. -/
def decodeJalr (w : Word) : Except DecodeError Instr :=
  if funct3Of w = 0#3 then .ok (.jalr (rdOf w) (rs1Of w) (immIOf w)) else .error (.funct3 w)

/-- The decoder: a pure function of the fetched word (R90) that dispatches on the nine major opcodes of R91 and rejects
every other word (R98). -/
def decode (w : Word) : Except DecodeError Instr :=
  match opcodeOf w with
  | 0b0110011#7 => decodeOp w
  | 0b0010011#7 => decodeOpImm w
  | 0b0110111#7 => .ok (.lui (rdOf w) (immUOf w))
  | 0b0010111#7 => .ok (.auipc (rdOf w) (immUOf w))
  | 0b1100011#7 => decodeBranch w
  | 0b1101111#7 => .ok (.jal (rdOf w) (immJOf w))
  | 0b1100111#7 => decodeJalr w
  | 0b0000011#7 => decodeLoad w
  | 0b0100011#7 => decodeStore w
  | _ => .error (.opcode w)

/-- Bytes as the little-endian value they hold, byte 0 least significant (R54). At most four bytes matter to a Word. -/
def leWord : List Byte → Word
  | [] => 0#32
  | b :: bs => b.setWidth 32 ||| (leWord bs <<< 8)

/-- Byte `i` of a Word, byte 0 least significant (R54). -/
def byteOf (v : Word) (i : Nat) : Byte := v.extractLsb' (8 * i) 8

/-- The first `n` bytes of a Word, the least significant first (R54). -/
def leBytes (v : Word) (n : Nat) : List Byte := (List.range n).map (byteOf v)

/-- The instruction at the front of a byte string, and the rest of the string: the length is always 4 (R80). -/
def decodeBytes : List Byte → Except DecodeError (Instr × List Byte)
  | b0 :: b1 :: b2 :: b3 :: rest =>
    match decode (leWord [b0, b1, b2, b3]) with
    | .ok i => .ok (i, rest)
    | .error e => .error e
  | _ => .error .truncated

/-- The bytes of an opcode-table word as the hardware stores them: the low `nbits` bits of `w`, every bit above them 0,
as the four bytes of one instruction word (R80, log 20). -/
def tableWord (nbits w : Nat) : Word := BitVec.ofNat 32 (w % 2 ^ nbits)

def decodeTableWord (nbits w : Nat) : Option Instr :=
  match decodeBytes (leBytes (tableWord nbits w) 4) with
  | .ok (i, _) => some i
  | .error _ => none

/-! ## The encoder (R82 to R97) -/

/-- R format (R82). -/
def encodeR (funct7 : BitVec 7) (funct3 : BitVec 3) (opcode : BitVec 7) (rd rs1 rs2 : RegIdx) : Word :=
  funct7 ++ rs2 ++ rs1 ++ funct3 ++ rd ++ opcode

/-- I format (R82, R83). -/
def encodeI (funct3 : BitVec 3) (opcode : BitVec 7) (rd rs1 : RegIdx) (imm : BitVec 12) : Word :=
  imm ++ rs1 ++ funct3 ++ rd ++ opcode

/-- S format (R82, R84). -/
def encodeS (funct3 : BitVec 3) (opcode : BitVec 7) (rs1 rs2 : RegIdx) (imm : BitVec 12) : Word :=
  imm.extractLsb' 5 7 ++ rs2 ++ rs1 ++ funct3 ++ imm.extractLsb' 0 5 ++ opcode

/-- SB format (R82, R85). -/
def encodeB (funct3 : BitVec 3) (opcode : BitVec 7) (rs1 rs2 : RegIdx) (imm : BitVec 13) : Word :=
  imm.extractLsb' 12 1 ++ imm.extractLsb' 5 6 ++ rs2 ++ rs1 ++ funct3 ++ imm.extractLsb' 1 4 ++ imm.extractLsb' 11 1
    ++ opcode

/-- U format (R82, R86). -/
def encodeU (opcode : BitVec 7) (rd : RegIdx) (imm : BitVec 20) : Word := imm ++ rd ++ opcode

/-- UJ format (R82, R87). -/
def encodeJ (opcode : BitVec 7) (rd : RegIdx) (imm : BitVec 21) : Word :=
  imm.extractLsb' 20 1 ++ imm.extractLsb' 1 10 ++ imm.extractLsb' 11 1 ++ imm.extractLsb' 12 8 ++ rd ++ opcode

/-- The word of an instruction. SLL and SLLI, whose selector bits the decoder does not check, are encoded with those bits
0, the words the spec's own tables write for them (R114, R128). -/
def encode : Instr → Word
  | .add rd rs1 rs2 => encodeR 0b0000000#7 0b000#3 0b0110011#7 rd rs1 rs2
  | .sub rd rs1 rs2 => encodeR 0b0100000#7 0b000#3 0b0110011#7 rd rs1 rs2
  | .sll rd rs1 rs2 => encodeR 0b0000000#7 0b001#3 0b0110011#7 rd rs1 rs2
  | .slt rd rs1 rs2 => encodeR 0b0000000#7 0b010#3 0b0110011#7 rd rs1 rs2
  | .sltu rd rs1 rs2 => encodeR 0b0000000#7 0b011#3 0b0110011#7 rd rs1 rs2
  | .xor rd rs1 rs2 => encodeR 0b0000000#7 0b100#3 0b0110011#7 rd rs1 rs2
  | .srl rd rs1 rs2 => encodeR 0b0000000#7 0b101#3 0b0110011#7 rd rs1 rs2
  | .sra rd rs1 rs2 => encodeR 0b0100000#7 0b101#3 0b0110011#7 rd rs1 rs2
  | .or rd rs1 rs2 => encodeR 0b0000000#7 0b110#3 0b0110011#7 rd rs1 rs2
  | .and rd rs1 rs2 => encodeR 0b0000000#7 0b111#3 0b0110011#7 rd rs1 rs2
  | .addi rd rs1 imm => encodeI 0b000#3 0b0010011#7 rd rs1 imm
  | .slti rd rs1 imm => encodeI 0b010#3 0b0010011#7 rd rs1 imm
  | .sltiu rd rs1 imm => encodeI 0b011#3 0b0010011#7 rd rs1 imm
  | .xori rd rs1 imm => encodeI 0b100#3 0b0010011#7 rd rs1 imm
  | .ori rd rs1 imm => encodeI 0b110#3 0b0010011#7 rd rs1 imm
  | .andi rd rs1 imm => encodeI 0b111#3 0b0010011#7 rd rs1 imm
  | .slli rd rs1 shamt => encodeR 0b0000000#7 0b001#3 0b0010011#7 rd rs1 shamt
  | .srli rd rs1 shamt => encodeR 0b0000000#7 0b101#3 0b0010011#7 rd rs1 shamt
  | .srai rd rs1 shamt => encodeR 0b0100000#7 0b101#3 0b0010011#7 rd rs1 shamt
  | .lui rd imm => encodeU 0b0110111#7 rd imm
  | .auipc rd imm => encodeU 0b0010111#7 rd imm
  | .beq rs1 rs2 offset => encodeB 0b000#3 0b1100011#7 rs1 rs2 offset
  | .bne rs1 rs2 offset => encodeB 0b001#3 0b1100011#7 rs1 rs2 offset
  | .blt rs1 rs2 offset => encodeB 0b100#3 0b1100011#7 rs1 rs2 offset
  | .bge rs1 rs2 offset => encodeB 0b101#3 0b1100011#7 rs1 rs2 offset
  | .bltu rs1 rs2 offset => encodeB 0b110#3 0b1100011#7 rs1 rs2 offset
  | .bgeu rs1 rs2 offset => encodeB 0b111#3 0b1100011#7 rs1 rs2 offset
  | .jal rd offset => encodeJ 0b1101111#7 rd offset
  | .jalr rd rs1 imm => encodeI 0b000#3 0b1100111#7 rd rs1 imm
  | .lb rd rs1 imm => encodeI 0b000#3 0b0000011#7 rd rs1 imm
  | .lh rd rs1 imm => encodeI 0b001#3 0b0000011#7 rd rs1 imm
  | .lw rd rs1 imm => encodeI 0b010#3 0b0000011#7 rd rs1 imm
  | .lbu rd rs1 imm => encodeI 0b100#3 0b0000011#7 rd rs1 imm
  | .lhu rd rs1 imm => encodeI 0b101#3 0b0000011#7 rd rs1 imm
  | .sb rs2 rs1 imm => encodeS 0b000#3 0b0100011#7 rs1 rs2 imm
  | .sh rs2 rs1 imm => encodeS 0b001#3 0b0100011#7 rs1 rs2 imm
  | .sw rs2 rs1 imm => encodeS 0b010#3 0b0100011#7 rs1 rs2 imm

/-! ## The opcode table (spec/opcode_table.json, R99) -/

/-- A row's match and mask: a word is one of the row's when its masked bits are the match. -/
abbrev Row := Word × Word

/-- Does the word match the row? -/
def Row.matches (r : Row) (w : Word) : Bool := w &&& r.2 == r.1

/-- The match and mask of an instruction's row. -/
def Instr.row : Instr → Row
  | .add _ _ _ => (0x00000033#32, 0xFE00707F#32)
  | .sub _ _ _ => (0x40000033#32, 0xFE00707F#32)
  | .sll _ _ _ => (0x00001033#32, 0x0000707F#32)
  | .slt _ _ _ => (0x00002033#32, 0xFE00707F#32)
  | .sltu _ _ _ => (0x00003033#32, 0xFE00707F#32)
  | .xor _ _ _ => (0x00004033#32, 0xFE00707F#32)
  | .srl _ _ _ => (0x00005033#32, 0xFE00707F#32)
  | .sra _ _ _ => (0x40005033#32, 0xFE00707F#32)
  | .or _ _ _ => (0x00006033#32, 0xFE00707F#32)
  | .and _ _ _ => (0x00007033#32, 0xFE00707F#32)
  | .addi _ _ _ => (0x00000013#32, 0x0000707F#32)
  | .slti _ _ _ => (0x00002013#32, 0x0000707F#32)
  | .sltiu _ _ _ => (0x00003013#32, 0x0000707F#32)
  | .xori _ _ _ => (0x00004013#32, 0x0000707F#32)
  | .ori _ _ _ => (0x00006013#32, 0x0000707F#32)
  | .andi _ _ _ => (0x00007013#32, 0x0000707F#32)
  | .slli _ _ _ => (0x00001013#32, 0x0000707F#32)
  | .srli _ _ _ => (0x00005013#32, 0xFE00707F#32)
  | .srai _ _ _ => (0x40005013#32, 0xFE00707F#32)
  | .lui _ _ => (0x00000037#32, 0x0000007F#32)
  | .auipc _ _ => (0x00000017#32, 0x0000007F#32)
  | .beq _ _ _ => (0x00000063#32, 0x0000707F#32)
  | .bne _ _ _ => (0x00001063#32, 0x0000707F#32)
  | .blt _ _ _ => (0x00004063#32, 0x0000707F#32)
  | .bge _ _ _ => (0x00005063#32, 0x0000707F#32)
  | .bltu _ _ _ => (0x00006063#32, 0x0000707F#32)
  | .bgeu _ _ _ => (0x00007063#32, 0x0000707F#32)
  | .jal _ _ => (0x0000006F#32, 0x0000007F#32)
  | .jalr _ _ _ => (0x00000067#32, 0x0000707F#32)
  | .lb _ _ _ => (0x00000003#32, 0x0000707F#32)
  | .lh _ _ _ => (0x00001003#32, 0x0000707F#32)
  | .lw _ _ _ => (0x00002003#32, 0x0000707F#32)
  | .lbu _ _ _ => (0x00004003#32, 0x0000707F#32)
  | .lhu _ _ _ => (0x00005003#32, 0x0000707F#32)
  | .sb _ _ _ => (0x00000023#32, 0x0000707F#32)
  | .sh _ _ _ => (0x00001023#32, 0x0000707F#32)
  | .sw _ _ _ => (0x00002023#32, 0x0000707F#32)

/-- The 37 rows, each as the row of one instruction of it. -/
def opcodeTable : List Row :=
  [ Instr.add 0 0 0, .sub 0 0 0, .sll 0 0 0, .slt 0 0 0, .sltu 0 0 0, .xor 0 0 0, .srl 0 0 0, .sra 0 0 0, .or 0 0 0,
    .and 0 0 0, .addi 0 0 0, .slti 0 0 0, .sltiu 0 0 0, .xori 0 0 0, .ori 0 0 0, .andi 0 0 0, .slli 0 0 0,
    .srli 0 0 0, .srai 0 0 0, .lui 0 0, .auipc 0 0, .beq 0 0 0, .bne 0 0 0, .blt 0 0 0, .bge 0 0 0, .bltu 0 0 0,
    .bgeu 0 0 0, .jal 0 0, .jalr 0 0 0, .lb 0 0 0, .lh 0 0 0, .lw 0 0 0, .lbu 0 0 0, .lhu 0 0 0, .sb 0 0 0,
    .sh 0 0 0, .sw 0 0 0 ].map Instr.row

end Sys2Proof
end

