-- ==== Sys2Proof/Config.lean ====
section
/-! DEFINITION. What a battle's configuration fixes (00_scope.md R9 to R16, 10_state.md R33). Nothing the spec leaves
open is a value after which a machine goes on, so there is no free value here: every parameter of the spec is plain data
in `BattleConfig` or in a warrior's input, and a claim over all states is a claim for all of their values. -/

namespace Sys2Proof

/-- The three access kinds of the arena's access check (R14, R34). -/
inductive AccessKind where
  | fetch
  | read
  | write
deriving DecidableEq, Repr

/-- The encoding selected once per battle (R11, R102). Only `reduced` has semantics (R5 a). -/
inductive EncodingMode where
  | reduced
  | legacy
deriving DecidableEq, Repr

/-- A run of linear addresses that the arena does not admit for one access kind. A list of these is the parameter
`Accessible` (R14) as plain data: log 4. -/
structure Region where
  base : Nat
  size : Nat
  kind : AccessKind
deriving DecidableEq, Repr

/-- The battle configuration: the five configuration fields of R33, and the parameters `Accessible` (R14) and
`InitArena` (R16). `initArena` lists the bytes that differ from `Config.unlistedByte`; a later entry for an address
wins (log 5). -/
structure BattleConfig where
  arenaSize    : Nat
  segmentSize  : Nat
  encodingMode : EncodingMode
  roundCap     : Nat
  rvSegment    : Nat
  refused      : List Region
  initArena    : List (Nat × Byte)
deriving DecidableEq, Repr

/-- What an arena byte that the memory list does not list reads as. DESIGN CHOICE (log 5): the value the spec's test
vectors take for `InitArena` (R16). -/
def Config.unlistedByte : Byte := 0

/-- The configuration the model holds before any `configure`. DESIGN CHOICE (log 3): the defaults of the spec's test
vectors (95_test_vectors.md), where `SegmentSize` does not matter and is 0 here. -/
def Config.beforeConfigure : BattleConfig :=
  { arenaSize := 0x2000, segmentSize := 0, encodingMode := .reduced, roundCap := 100, rvSegment := 0,
    refused := [], initArena := [] }

end Sys2Proof
end

