-- ==== Sys2Proof/Machine/State.lean ====
section
/-! DEFINITION. The state of the machine as plain data (10_state.md): the warriors' contexts (CORE), the arena (ARENA),
the war loop (SCHED) and the host port's signals; the state right after reset; the reasons for which the model stops. -/

namespace Sys2Proof.Machine

/-- A CPU state (R20, R23): x1 to x31 and the pc. x0 is hard-wired and has no storage (R21, log 7): register `r` other
than x0 stands at index `r - 1`. There is no flag (R25). -/
structure Cpu where
  regs : Vector Word 31
  pc   : Word
deriving DecidableEq, Repr

/-- The registers x1 to x31 at 0: `InitRegs` as the spec's test vectors take it (R16), the default of a warrior's input
(log 6). -/
def zeroRegs : Vector Word 31 := Vector.replicate 31 0

/-- A warrior as the host gives it to `configure` (R15, R16): `entryPc` absent means `LoadOffset` (R15). -/
structure WarriorInput where
  label      : String
  group      : String
  code       : List Byte
  loadOffset : Word
  entryPc    : Option Word := none
  initRegs   : Vector Word 31 := zeroRegs
deriving DecidableEq, Repr

/-- A warrior record (R27): identity, code, load offset and entry pc, its CPU state and its liveness (R24). -/
structure Warrior where
  label      : String
  group      : String
  code       : List Byte
  loadOffset : Word
  entryPc    : Word
  cpu        : Cpu
  alive      : Bool
deriving DecidableEq, Repr

/-- The arena's memory (R28): the bytes that differ from `Config.unlistedByte`, by strictly rising linear address. -/
abbrev Memory := List Host.Cell

/-- The arena's phase register (R29). -/
inductive Phase where
  | loading
  | running
deriving DecidableEq, Repr

/-- One write notification (R38, R57): linear address, byte, phase. -/
structure Notification where
  linear : Nat
  value  : Byte
  phase  : Phase
deriving DecidableEq, Repr

/-- The hardware's two faults with the info each records (R176). Raising one is not a stop of the model: it is the
warrior's death (R179). -/
inductive WarriorFault where
  /-- the fetched word matches no handler: the pc and the word -/
  | illegalOpcode (pc inst : Word)
  /-- an access the arena does not admit: the first refused linear address and the access kind -/
  | memoryFault (linear : Nat) (kind : AccessKind)
deriving DecidableEq, Repr

/-- The scheduler's states (R31, R182). -/
inductive SchedState where
  | init
  | running
  | ended
deriving DecidableEq, Repr

/-- The termination reasons (R31, R185). -/
inductive Reason where
  | noSurvivors
  | singleSurvivor
  | roundCap
  | aborted
deriving DecidableEq, Repr

/-- The lifecycle events (R190). -/
inductive Event where
  | birth (w : Nat) (label : String)
  | start
  | death (w : Nat) (label : String) (fault : WarriorFault)
  | roundCompleted (n : Nat)
  | finished (reason : Reason)
deriving DecidableEq, Repr

/-- The setup errors (R212). -/
inductive SetupError where
  | noWarriors
  | zeroArenaSize
  | unsupportedEncodingMode
deriving DecidableEq, Repr

/-- What `configure` answers (R40). -/
inductive ConfigureAnswer where
  | ready
  | setupError (e : SetupError)
deriving DecidableEq, Repr

/-- The arguments of a `configure` transaction (R40): the configuration and the ordered warrior list (R15). -/
structure Battle where
  config   : BattleConfig
  warriors : List WarriorInput
deriving DecidableEq, Repr

/-- The whole machine. -/
structure State where
  /-- the battle's configuration (R33) -/
  config          : BattleConfig
  /-- the warriors by index (R15, R27); N is its length -/
  warriors        : List Warrior
  /-- the arena's bytes (R28) -/
  mem             : Memory
  /-- the arena's phase (R29) -/
  phase           : Phase
  /-- is a write-listener registered (R30)? -/
  listener        : Bool
  /-- the notifications the listener has received, oldest first (R38, R57) -/
  notifications   : List Notification
  /-- the scheduler's state (R31) -/
  schedState      : SchedState
  /-- rounds completed so far (R31) -/
  roundsCompleted : Nat
  /-- the next warrior slot of the round; N between rounds (R31) -/
  cursor          : Nat
  /-- the termination reason (R31) -/
  reason          : Option Reason
  /-- the event output log, oldest first (R31, R190) -/
  events          : List Event
  /-- the values of `abortRequested` at the boundaries to come, the next first (R32, log 8) -/
  abortDraws      : List Bool
  /-- a `configure` transaction presented and not yet answered (R40, log 2) -/
  pending         : Option Battle
  /-- the last answer of `configure` (R40, log 2) -/
  answer          : Option ConfigureAnswer
deriving DecidableEq, Repr

/-- The machine right after reset: before any `configure` (log 2), every field of R33 at its reset value there, the
configuration inputs at log 3's values, memory with nothing listed. -/
def State.reset : State :=
  { config := Config.beforeConfigure, warriors := [], mem := [], phase := .loading, listener := false,
    notifications := [], schedState := .init, roundsCompleted := 0, cursor := 0, reason := none, events := [],
    abortDraws := [], pending := none, answer := none }

/-- Why the model stops with a fault. None is a fault of the hardware: its two faults are `WarriorFault`, and a warrior
that raises one dies while the machine goes on (R179). -/
inductive Fault where
  /-- Raised by a meaning that is run when no live warrior's slot is open: the step port takes a warrior index w with
  alive(w) (R39), so there is no such transaction. `step` never raises it. Safe: nothing is claimed of such a run
  (log 10). -/
  | noOpenSlot
deriving DecidableEq, Repr

/-- Why the model refuses to go on. -/
inductive Refusal where
  /-- Raised by an arm of `exec` whose instruction has no meaning yet. No arm raises it now. Safe. -/
  | notModelled (mnemonic : String)
  /-- Raised by `step` when a battle is under way with `EncodingMode = Legacy`, for which this spec has no semantics
  (R5 a, R102); `configure` never starts one (R213). Safe (log 11). -/
  | legacyEncoding
  /-- Raised by `step` for an arena size that is 0 or does not divide 2^32: R9 and R213 refuse such a configuration.
  Safe (log 11). -/
  | arenaSizeNotAdmitted
deriving DecidableEq, Repr

/-- What a meaning and the step answer. -/
abbrev Result := Host.Outcome State Fault Refusal

end Sys2Proof.Machine
end

