-- ==== Sys2Proof/Machine/Ops.lean ====
section
/-! DEFINITION. The named operations every meaning is written over: registers, the pc, address translation, the access
check, reading and writing the arena, fetching, taking a fault, and the open slot. -/

namespace Sys2Proof.Machine

/-! ## Registers (R20 to R22) -/

/-- `x[r]`: x0 reads as zero (R21). -/
def Cpu.read (c : Cpu) (r : RegIdx) : Word :=
  if r = 0#5 then 0#32 else c.regs[r.toNat - 1]'(by have := r.isLt; omega)

/-- `x[r] <- v`: a write to x0 is discarded (R21). -/
def Cpu.write (c : Cpu) (r : RegIdx) (v : Word) : Cpu :=
  if r = 0#5 then c else { c with regs := c.regs.set (r.toNat - 1) v (by have := r.isLt; omega) }

/-- The pc redirected (R175). -/
def Cpu.setPc (c : Cpu) (pc : Word) : Cpu := { c with pc := pc }

/-- The address of the next instruction, modulo 2^32 (R8, R23, R175). -/
def Cpu.nextPc (c : Cpu) : Word := c.pc + 4#32

/-! ## The open slot (R31, R39, R181) -/

/-- The live warrior whose slot is open: the one the cursor names. None when the cursor names no warrior or a dead one,
since the step port takes a live warrior's index (R39). -/
def State.slot? (s : State) : Option Warrior :=
  match s.warriors[s.cursor]? with
  | some w => if w.alive then some w else none
  | none => none

/-- Run `k` on the warrior of the open slot. -/
def inSlot (s : State) (k : Warrior → Result) : Result :=
  match s.slot? with
  | some w => k w
  | none => .fault .noOpenSlot

/-- The warrior of the open slot replaced. -/
def State.setSlot (s : State) (w : Warrior) : State := { s with warriors := s.warriors.set s.cursor w }

/-- The CPU state of the open slot's warrior `w` replaced: the only way an instruction changes a context (R26). -/
def State.setCpu (s : State) (w : Warrior) (c : Cpu) : State := s.setSlot { w with cpu := c }

/-! ## Address translation and the access check (R50 to R53) -/

/-- The address decoder, in exact arithmetic over the naturals (R50). -/
def translateAddr (cfg : BattleConfig) (segment offset : Nat) : Nat :=
  (segment * cfg.segmentSize + offset) % cfg.arenaSize

/-- `lin_i(a)`: the linear address of byte `i` of an access at `a`, in segment `RvSegment` (R52). -/
def linAddr (cfg : BattleConfig) (a : Word) (i : Nat) : Nat :=
  translateAddr cfg cfg.rvSegment (a + BitVec.ofNat 32 i).toNat

/-- Is the address in the region? -/
def covers (r : Region) (linear : Nat) : Bool := decide (r.base ≤ linear) && decide (linear < r.base + r.size)

/-- `Accessible(linear, kind)` (R14): no refused region of the kind covers the address (log 4). -/
def accessible (cfg : BattleConfig) (linear : Nat) (kind : AccessKind) : Bool :=
  !cfg.refused.any (fun r => r.kind == kind && covers r linear)

/-- The linear addresses of the `n` bytes at `a`, byte 0 first (R52). -/
def linAddrs (cfg : BattleConfig) (a : Word) (n : Nat) : List Nat := (List.range n).map (linAddr cfg a)

/-- The first of the `n` bytes at `a` that the arena does not admit, if any (R53). -/
def firstRefused (cfg : BattleConfig) (a : Word) (n : Nat) (kind : AccessKind) : Option Nat :=
  (linAddrs cfg a n).find? (fun l => !accessible cfg l kind)

/-! ## The arena's bytes (R28, R54) -/

/-- `mem[a]`; an address that is not listed reads as `Config.unlistedByte` (log 5). -/
def Memory.read : Memory → Nat → Byte
  | [], _ => Config.unlistedByte
  | (b, v) :: m, a => if a = b then v else Memory.read m a

/-- `mem[a] <- v`, keeping the canonical form: writing what an unlisted address reads as removes the entry. -/
def Memory.write : Memory → Nat → Byte → Memory
  | [], a, v => if v = Config.unlistedByte then [] else [(a, v)]
  | (b, u) :: m, a, v =>
    if a < b then if v = Config.unlistedByte then (b, u) :: m else (a, v) :: (b, u) :: m
    else if a = b then if v = Config.unlistedByte then m else (a, v) :: m
    else (b, u) :: Memory.write m a v

/-- The canonical form: strictly rising addresses, and no entry equal to what an unlisted address reads as. -/
abbrev Memory.wf (m : Memory) : Prop :=
  m.Pairwise (fun c d => c.1 < d.1) ∧ ∀ c ∈ m, c.2 ≠ Config.unlistedByte

/-- Every listed address exists: it lies in `[0, size)` (R51, R63). -/
abbrev Memory.within (m : Memory) (size : Nat) : Prop := ∀ c ∈ m, c.1 < size

/-! ## The arena's transactions (R55 to R57) -/

/-- Byte `i` of the access at `a`, as the arena holds it. -/
def State.byteAt (s : State) (a : Word) (i : Nat) : Byte := Memory.read s.mem (linAddr s.config a i)

/-- `MemRead(a, n, kind)` (R55): every byte checked, then the little-endian value, zero-extended to a Word. -/
def memRead (s : State) (a : Word) (n : Nat) (kind : AccessKind) : Except WarriorFault Word :=
  match firstRefused s.config a n kind with
  | some l => .error (.memoryFault l kind)
  | none => .ok (leWord ((List.range n).map (s.byteAt a)))

/-- Commit one byte and notify the registered listener with the current phase (R56, R57); with no listener the
notification goes nowhere (R30). -/
def State.commitByte (s : State) (linear : Nat) (v : Byte) : State :=
  { s with
    mem := Memory.write s.mem linear v
    notifications := if s.listener then s.notifications ++ [⟨linear, v, s.phase⟩] else s.notifications }

/-- The first `n` bytes of `v` committed at `a`, in ascending order (R56). -/
def State.commitBytes (s : State) (a : Word) (v : Word) : Nat → State
  | 0 => s
  | n + 1 => (s.commitBytes a v n).commitByte (linAddr s.config a n) (byteOf v n)

/-- `MemWrite(a, n, v)` (R56): every byte checked before any is written. -/
def memWrite (s : State) (a : Word) (n : Nat) (v : Word) : Except WarriorFault State :=
  match firstRefused s.config a n .write with
  | some l => .error (.memoryFault l .write)
  | none => .ok (s.commitBytes a v n)

/-- The instruction word at `pc`: four bytes with access kind Fetch (R80, R172). -/
def fetch (s : State) (pc : Word) : Except WarriorFault Word := memRead s pc 4 .fetch

/-! ## Events and faults (R176 to R180, R190) -/

/-- Emit an event on the host port (R190). -/
def State.emit (s : State) (e : Event) : State := { s with events := s.events ++ [e] }

/-- TAKING A FAULT is the death of the warrior `w` of the open slot (R179): `alive` becomes false and `Death` is emitted.
Nothing else changes (R177): no register, no pc, no byte, no notification. There is no saved pc, cause, vector or mode,
and no return from it (R180), so this one operation is the whole of exception handling. -/
def State.takeFault (s : State) (w : Warrior) (f : WarriorFault) : State :=
  (s.setSlot { w with alive := false }).emit (.death s.cursor w.label f)

/-! ## The two ends of an instruction (R171, R175) -/

/-- The instruction writes `v` to `rd` and the pc goes to `pc` (R175). -/
def retire (s : State) (w : Warrior) (rd : RegIdx) (v : Word) (pc : Word) : Result :=
  .next (s.setCpu w ((w.cpu.write rd v).setPc pc))

/-- The instruction writes no register and the pc goes to `pc`. -/
def goTo (s : State) (w : Warrior) (pc : Word) : Result := .next (s.setCpu w (w.cpu.setPc pc))

/-- The step after a next state. -/
def onNext (f : State → State) : Result → Result
  | .next s => .next (f s)
  | .fault r => .fault r
  | .refused r => .refused r

end Sys2Proof.Machine
end

