-- ==== Sys2Proof/Machine/Flags.lean ====
section
/-! DEFINITION. The core has no flag (R25). What stands in a flag's place: the 0/1 results of the set-less-than
instructions (R111) and the conditions of the branches (R151 to R156), both comparisons of two Words (R17). -/

namespace Sys2Proof.Machine

/-- `a <s b` (R17). -/
def lessSigned (a b : Word) : Bool := decide (a.toInt < b.toInt)

/-- `a <u b` (R17). -/
def lessUnsigned (a b : Word) : Bool := decide (a.toNat < b.toNat)

/-- A comparison's result as a Word: 1 or 0 (R111). -/
def boolWord (b : Bool) : Word := if b then 1#32 else 0#32

end Sys2Proof.Machine
end

