-- ==== Sys2Proof/Machine/Operands.lean ====
section
/-! DEFINITION. The operand forms (R83 to R89): the immediates as Words, the shift amount, and the one addressing mode. -/

namespace Sys2Proof.Machine

/-- The I- and S-format immediate, `sext_12` (R83, R84). -/
def simm12 (imm : BitVec 12) : Word := imm.signExtend 32

/-- The SB-format offset, `sext_13`, bit 0 included (R85). -/
def branchOffset (offset : BitVec 13) : Word := offset.signExtend 32

/-- The U-format immediate: the upper 20 bits, the low 12 zero (R86). -/
def upperImm (imm : BitVec 20) : Word := imm ++ 0#12

/-- The UJ-format offset, `sext_21`, bit 0 included (R87). -/
def jumpOffset (offset : BitVec 21) : Word := offset.signExtend 32

/-- The amount of a register shift: the low 5 bits of `x[rs2]` (R88). -/
def shiftAmount (v : Word) : BitVec 5 := v.extractLsb' 0 5

/-- `EA <- x[rs1] + imm`, modulo 2^32 (R160); also the target of JALR (R158). -/
def effectiveAddress (c : Cpu) (rs1 : RegIdx) (imm : BitVec 12) : Word := c.read rs1 + simm12 imm

end Sys2Proof.Machine
end

