-- ==== Sys2Proof/Machine/Control.lean ====
section
/-! DEFINITION. The control-transfer instructions (41_control.md, R150 to R158). No target is checked here: a target the
arena does not admit faults at the warrior's next fetch (R150). -/

namespace Sys2Proof.Machine

/-- A conditional branch (R150): to `pc + imm_B` when the condition holds, else to `pc + 4`; no register written. -/
def branch (cond : Word → Word → Bool) (rs1 rs2 : RegIdx) (offset : BitVec 13) (s : State) : Result :=
  inSlot s fun w =>
    goTo s w (if cond (w.cpu.read rs1) (w.cpu.read rs2) then w.cpu.pc + branchOffset offset else w.cpu.nextPc)

/-- R151 -/
def execBeq (rs1 rs2 : RegIdx) (offset : BitVec 13) (s : State) : Result := branch (fun a b => a == b) rs1 rs2 offset s
/-- R152 -/
def execBne (rs1 rs2 : RegIdx) (offset : BitVec 13) (s : State) : Result := branch (fun a b => a != b) rs1 rs2 offset s
/-- R153 -/
def execBlt (rs1 rs2 : RegIdx) (offset : BitVec 13) (s : State) : Result := branch lessSigned rs1 rs2 offset s
/-- R154 -/
def execBge (rs1 rs2 : RegIdx) (offset : BitVec 13) (s : State) : Result :=
  branch (fun a b => !lessSigned a b) rs1 rs2 offset s
/-- R155 -/
def execBltu (rs1 rs2 : RegIdx) (offset : BitVec 13) (s : State) : Result := branch lessUnsigned rs1 rs2 offset s
/-- R156 -/
def execBgeu (rs1 rs2 : RegIdx) (offset : BitVec 13) (s : State) : Result :=
  branch (fun a b => !lessUnsigned a b) rs1 rs2 offset s

/-- R157 -/
def execJal (rd : RegIdx) (offset : BitVec 21) (s : State) : Result :=
  inSlot s fun w => retire s w rd w.cpu.nextPc (w.cpu.pc + jumpOffset offset)

/-- R158: the target is computed from the old `x[rs1]` and its bit 0 is kept. -/
def execJalr (rd rs1 : RegIdx) (imm : BitVec 12) (s : State) : Result :=
  inSlot s fun w => retire s w rd w.cpu.nextPc (effectiveAddress w.cpu rs1 imm)

end Sys2Proof.Machine
end

