-- ==== Sys2Proof/Machine/Integer.lean ====
section
/-! DEFINITION. The integer computational instructions (40_integer.md, R110 to R132). -/

namespace Sys2Proof.Machine

/-- A register-register instruction: both sources read before the destination is written (R18, R110). -/
def regReg (f : Word → Word → Word) (rd rs1 rs2 : RegIdx) (s : State) : Result :=
  inSlot s fun w => retire s w rd (f (w.cpu.read rs1) (w.cpu.read rs2)) w.cpu.nextPc

/-- A register-immediate instruction over the operand `v` (R110). -/
def regImm (f : Word → Word → Word) (rd rs1 : RegIdx) (v : Word) (s : State) : Result :=
  inSlot s fun w => retire s w rd (f (w.cpu.read rs1) v) w.cpu.nextPc

/-- Left shift by 0 to 31, filling with zeros (R17). -/
def shiftLeft (a : Word) (n : BitVec 5) : Word := a <<< n.toNat
/-- `>>u` (R17). -/
def shiftRight (a : Word) (n : BitVec 5) : Word := a >>> n.toNat
/-- `>>s`, filling with copies of bit 31 (R17). -/
def shiftRightSigned (a : Word) (n : BitVec 5) : Word := a.sshiftRight n.toNat

/-- R112 -/
def execAdd (rd rs1 rs2 : RegIdx) (s : State) : Result := regReg (fun a b => a + b) rd rs1 rs2 s
/-- R113 -/
def execSub (rd rs1 rs2 : RegIdx) (s : State) : Result := regReg (fun a b => a - b) rd rs1 rs2 s
/-- R114 -/
def execSll (rd rs1 rs2 : RegIdx) (s : State) : Result :=
  regReg (fun a b => shiftLeft a (shiftAmount b)) rd rs1 rs2 s
/-- R115 -/
def execSlt (rd rs1 rs2 : RegIdx) (s : State) : Result := regReg (fun a b => boolWord (lessSigned a b)) rd rs1 rs2 s
/-- R116 -/
def execSltu (rd rs1 rs2 : RegIdx) (s : State) : Result :=
  regReg (fun a b => boolWord (lessUnsigned a b)) rd rs1 rs2 s
/-- R117 -/
def execXor (rd rs1 rs2 : RegIdx) (s : State) : Result := regReg (fun a b => a ^^^ b) rd rs1 rs2 s
/-- R118 -/
def execSrl (rd rs1 rs2 : RegIdx) (s : State) : Result :=
  regReg (fun a b => shiftRight a (shiftAmount b)) rd rs1 rs2 s
/-- R119 -/
def execSra (rd rs1 rs2 : RegIdx) (s : State) : Result :=
  regReg (fun a b => shiftRightSigned a (shiftAmount b)) rd rs1 rs2 s
/-- R120 -/
def execOr (rd rs1 rs2 : RegIdx) (s : State) : Result := regReg (fun a b => a ||| b) rd rs1 rs2 s
/-- R121 -/
def execAnd (rd rs1 rs2 : RegIdx) (s : State) : Result := regReg (fun a b => a &&& b) rd rs1 rs2 s

/-- R122 -/
def execAddi (rd rs1 : RegIdx) (imm : BitVec 12) (s : State) : Result :=
  regImm (fun a b => a + b) rd rs1 (simm12 imm) s
/-- R123 -/
def execSlti (rd rs1 : RegIdx) (imm : BitVec 12) (s : State) : Result :=
  regImm (fun a b => boolWord (lessSigned a b)) rd rs1 (simm12 imm) s
/-- R124: the immediate is sign-extended, then compared unsigned. -/
def execSltiu (rd rs1 : RegIdx) (imm : BitVec 12) (s : State) : Result :=
  regImm (fun a b => boolWord (lessUnsigned a b)) rd rs1 (simm12 imm) s
/-- R125 -/
def execXori (rd rs1 : RegIdx) (imm : BitVec 12) (s : State) : Result :=
  regImm (fun a b => a ^^^ b) rd rs1 (simm12 imm) s
/-- R126 -/
def execOri (rd rs1 : RegIdx) (imm : BitVec 12) (s : State) : Result :=
  regImm (fun a b => a ||| b) rd rs1 (simm12 imm) s
/-- R127 -/
def execAndi (rd rs1 : RegIdx) (imm : BitVec 12) (s : State) : Result :=
  regImm (fun a b => a &&& b) rd rs1 (simm12 imm) s
/-- R128 -/
def execSlli (rd rs1 : RegIdx) (shamt : BitVec 5) (s : State) : Result :=
  inSlot s fun w => retire s w rd (shiftLeft (w.cpu.read rs1) shamt) w.cpu.nextPc
/-- R129 -/
def execSrli (rd rs1 : RegIdx) (shamt : BitVec 5) (s : State) : Result :=
  inSlot s fun w => retire s w rd (shiftRight (w.cpu.read rs1) shamt) w.cpu.nextPc
/-- R130 -/
def execSrai (rd rs1 : RegIdx) (shamt : BitVec 5) (s : State) : Result :=
  inSlot s fun w => retire s w rd (shiftRightSigned (w.cpu.read rs1) shamt) w.cpu.nextPc

/-- R131 -/
def execLui (rd : RegIdx) (imm : BitVec 20) (s : State) : Result :=
  inSlot s fun w => retire s w rd (upperImm imm) w.cpu.nextPc
/-- R132: the pc of this instruction. -/
def execAuipc (rd : RegIdx) (imm : BitVec 20) (s : State) : Result :=
  inSlot s fun w => retire s w rd (w.cpu.pc + upperImm imm) w.cpu.nextPc

end Sys2Proof.Machine
end

