-- ==== Sys2Proof/Machine/LoadStore.lean ====
section
/-! DEFINITION. The load and store instructions (42_loadstore.md, R160 to R169). An access the arena does not admit is
the warrior's death (`State.takeFault`). -/

namespace Sys2Proof.Machine

/-- A load of `n` bytes at EA, extended by `ext` (R160). With rd = x0 the read, and its fault, still happen (R169). -/
def load (n : Nat) (ext : Word → Word) (rd rs1 : RegIdx) (imm : BitVec 12) (s : State) : Result :=
  inSlot s fun w =>
    match memRead s (effectiveAddress w.cpu rs1 imm) n .read with
    | .ok v => retire s w rd (ext v) w.cpu.nextPc
    | .error f => .next (s.takeFault w f)

/-- A store of the low `n` bytes of `x[rs2]` at EA (R160). -/
def store (n : Nat) (rs2 rs1 : RegIdx) (imm : BitVec 12) (s : State) : Result :=
  inSlot s fun w =>
    match memWrite s (effectiveAddress w.cpu rs1 imm) n (w.cpu.read rs2) with
    | .ok t => goTo t w w.cpu.nextPc
    | .error f => .next (s.takeFault w f)

/-- `sext_8` of the byte read (R161). -/
def signByte (v : Word) : Word := (v.setWidth 8).signExtend 32
/-- `sext_16` of the halfword read (R162). -/
def signHalf (v : Word) : Word := (v.setWidth 16).signExtend 32

/-- R161 -/
def execLb (rd rs1 : RegIdx) (imm : BitVec 12) (s : State) : Result := load 1 signByte rd rs1 imm s
/-- R162 -/
def execLh (rd rs1 : RegIdx) (imm : BitVec 12) (s : State) : Result := load 2 signHalf rd rs1 imm s
/-- R163 -/
def execLw (rd rs1 : RegIdx) (imm : BitVec 12) (s : State) : Result := load 4 (fun v => v) rd rs1 imm s
/-- R164: `memRead` has zero-extended the byte. -/
def execLbu (rd rs1 : RegIdx) (imm : BitVec 12) (s : State) : Result := load 1 (fun v => v) rd rs1 imm s
/-- R165: `memRead` has zero-extended the halfword. -/
def execLhu (rd rs1 : RegIdx) (imm : BitVec 12) (s : State) : Result := load 2 (fun v => v) rd rs1 imm s
/-- R166 -/
def execSb (rs2 rs1 : RegIdx) (imm : BitVec 12) (s : State) : Result := store 1 rs2 rs1 imm s
/-- R167 -/
def execSh (rs2 rs1 : RegIdx) (imm : BitVec 12) (s : State) : Result := store 2 rs2 rs1 imm s
/-- R168 -/
def execSw (rs2 rs1 : RegIdx) (imm : BitVec 12) (s : State) : Result := store 4 rs2 rs1 imm s

end Sys2Proof.Machine
end

