-- ==== Sys2Proof/Machine/Init.lean ====
section
/-! DEFINITION. `configure` (R40): the setup errors (R212, R213), the admission restriction (R9) and the INIT sequence
(R210 to R217). -/

namespace Sys2Proof.Machine

/-- The arena sizes the spec admits: not 0, and dividing 2^32 (R9). -/
def sizeAdmitted (cfg : BattleConfig) : Bool := decide (0 < cfg.arenaSize) && 2 ^ 32 % cfg.arenaSize == 0

/-- Why a battle with this configuration is refused while it is under way, if it is (R9, R5 a, log 11). -/
def refusal? (cfg : BattleConfig) : Option Refusal :=
  if sizeAdmitted cfg then
    match cfg.encodingMode with
    | .reduced => none
    | .legacy => some .legacyEncoding
  else some .arenaSizeNotAdmitted

/-- The setup errors, in the order R212 lists them (log 12). -/
def setupError? (b : Battle) : Option SetupError :=
  if b.warriors = [] then some .noWarriors
  else if b.config.arenaSize = 0 then some .zeroArenaSize
  else if b.config.encodingMode = .legacy then some .unsupportedEncodingMode
  else none

/-- `mem[a] <- InitArena(a)` for every linear address (R214): no notification, no check. Cells outside the arena name no
byte of it. -/
def resetArena (cfg : BattleConfig) : Memory :=
  cfg.initArena.foldl (fun m c => if c.1 < cfg.arenaSize then Memory.write m c.1 c.2 else m) []

/-- The warrior's code bytes committed at `offset` and up in segment `RvSegment`, each notified, not checked (R215). -/
def loadCode (s : State) (offset : Nat) : List Byte → State
  | [] => s
  | b :: bs => loadCode (s.commitByte (translateAddr s.config s.config.rvSegment offset) b) (offset + 1) bs

/-- Every warrior's code, in index order (R215): where code overlaps, the higher index wins. -/
def loadAll (s : State) : List WarriorInput → State
  | [] => s
  | w :: ws => loadAll (loadCode s w.loadOffset.toNat w.code) ws

/-- `EntryPC(w)`, by default `LoadOffset(w)` (R15). -/
def WarriorInput.entry (w : WarriorInput) : Word := w.entryPc.getD w.loadOffset

/-- The warrior as INIT seeds it (R216). -/
def WarriorInput.seed (w : WarriorInput) : Warrior :=
  { label := w.label, group := w.group, code := w.code, loadOffset := w.loadOffset, entryPc := w.entry,
    cpu := { regs := w.initRegs, pc := w.entry }, alive := true }

/-- The births of the warriors from index `k` on, in index order (R190, R216). -/
def births (k : Nat) : List WarriorInput → List Event
  | [] => []
  | w :: ws => .birth k w.label :: births (k + 1) ws

/-- INIT's steps (2) to (4): phase Loading, the arena reset, every warrior's code loaded (R210, R211, R214, R215). -/
def loadArena (b : Battle) (s : State) : State :=
  loadAll { s with config := b.config, phase := .loading, mem := resetArena b.config } b.warriors

/-- The whole INIT sequence (R210), ending with phase Running and `Start` (R216, R217). The scheduler's state stays
INIT. -/
def initBattle (b : Battle) (s : State) : State :=
  { loadArena b s with
    warriors := b.warriors.map WarriorInput.seed
    events := s.events ++ births 0 b.warriors ++ [.start]
    roundsCompleted := 0
    cursor := b.warriors.length
    reason := none
    phase := .running }

/-- The `configure` transaction: a setup error changes no state (R212); an arena size the spec does not admit is refused
(R9, R213); otherwise INIT runs and the answer is Ready (R40). -/
def configure (b : Battle) (s : State) : Result :=
  match setupError? b with
  | some e => .next { s with pending := none, answer := some (.setupError e) }
  | none =>
    if sizeAdmitted b.config then .next { initBattle b s with pending := none, answer := some .ready }
    else .refused .arenaSizeNotAdmitted

end Sys2Proof.Machine
end

