-- ==== Sys2Proof/Machine/Sched.lean ====
section
/-! DEFINITION. One step of a warrior (R170 to R175) and the war loop (R181 to R187), as the transitions the machine's
step and the host's `runRound` are made of. -/

namespace Sys2Proof.Machine

/-- `step(w)` for the live warrior of the open slot (R171): fetch, decode, execute; the first fault in that order kills
it (R178). -/
def warriorStep (s : State) : Result :=
  inSlot s fun w =>
    match fetch s w.cpu.pc with
    | .error f => .next (s.takeFault w f)
    | .ok inst =>
      match decode inst with
      | .error _ => .next (s.takeFault w (.illegalOpcode w.cpu.pc inst))
      | .ok i => exec i s

/-- The cursor moved to the next slot of the round (R181). -/
def State.nextSlot (s : State) : State := { s with cursor := s.cursor + 1 }

/-- One slot of a round (R181): a live warrior steps; a dead one is skipped (R184). -/
def slot (s : State) : Result :=
  match s.slot? with
  | some _ => onNext State.nextSlot (warriorStep s)
  | none => .next s.nextSlot

/-- The first slot of a round is next (R181, D28). -/
def State.beginRound (s : State) : State := { s with cursor := 0 }

/-- The end of a round (R181): the cursor is N, the round is counted and `RoundCompleted` emitted. -/
def State.endRound (s : State) : State :=
  { s with cursor := s.warriors.length, roundsCompleted := s.roundsCompleted + 1 }.emit
    (.roundCompleted (s.roundsCompleted + 1))

/-- `A`, the number of warriors alive (R185, R186). -/
def State.aliveCount (s : State) : Nat := s.warriors.countP (fun w => w.alive)

/-- `end(r)` (R185). -/
def State.endBattle (s : State) (r : Reason) : State :=
  { s with reason := some r, schedState := .ended }.emit (.finished r)

/-- The value of `abortRequested` at the coming boundary (R32); false when the host has listed no more (log 8). -/
def State.abortRequested (s : State) : Bool := s.abortDraws.headD false

/-- The reason with which the coming boundary ends the battle, if it does: the first of R185's lines that holds. -/
def State.endReason? (s : State) : Option Reason :=
  if s.aliveCount = 0 then some .noSurvivors
  else if s.aliveCount = 1 then some .singleSurvivor
  else if s.config.roundCap ≤ s.roundsCompleted then some .roundCap
  else if s.abortRequested then some .aborted
  else none

/-- The termination check at a boundary (R185). It takes one draw of the abort input, whichever line holds. -/
def State.boundaryCheck (s : State) : State :=
  match s.endReason? with
  | some r => { s with abortDraws := s.abortDraws.tail }.endBattle r
  | none => { s with abortDraws := s.abortDraws.tail }

/-- After a slot: when it was the round's last, the round ends and the boundary after it is checked (R181, R183). -/
def State.closeRound (s : State) : State :=
  if s.cursor < s.warriors.length then s else s.endRound.boundaryCheck

/-- The boundary before round 1 and, when the battle goes on, `state <- RUNNING` and the start of round 1 (R187). -/
def State.firstRound (s : State) : State :=
  match s.boundaryCheck.schedState with
  | .ended => s.boundaryCheck
  | .init | .running => { s.boundaryCheck with schedState := .running }.beginRound.closeRound

/-- A transition of a battle under way, refused for a configuration the spec does not admit (log 11). -/
def guarded (s : State) (r : Result) : Result :=
  match refusal? s.config with
  | some e => .refused e
  | none => r

/-- The next transition of the machine (log 1). ENDED: none (R182). INIT: with the phase Loading the presented
`configure` is answered, or, with none presented, the machine waits (log 13); once INIT has ended, the first boundary and
the start of round 1. RUNNING: the slot the cursor names, or the start of the next round. -/
def advance (s : State) : Result :=
  match s.schedState with
  | .ended => .next s
  | .init =>
    match s.phase with
    | .loading =>
      match s.pending with
      | some b => configure b s
      | none => .next s
    | .running => guarded s (.next s.firstRound)
  | .running =>
    guarded s <|
      if s.cursor < s.warriors.length then onNext State.closeRound (slot s)
      else .next s.beginRound.closeRound

end Sys2Proof.Machine
end

