-- ==== Sys2Proof/Machine/Step.lean ====
section
/-! DEFINITION. The machine's step, and how an instruction is put where the next step fetches it. -/

namespace Sys2Proof.Machine

/-- One step of the machine: the next transition (`advance`, log 1). -/
def step (s : State) : Host.Outcome State Fault Refusal := advance s

/-- A live warrior with no code of its own, at pc 0, for a machine into which no warrior is loaded (log 2). -/
def blankWarrior : Warrior :=
  { label := "", group := "", code := [], loadOffset := 0, entryPc := 0, cpu := { regs := zeroRegs, pc := 0 },
    alive := true }

/-- A battle under way with a live warrior's slot open. What already is so stays; else the first live warrior's slot is
opened; else two blank warriors are loaded, since a battle of one ends at its first boundary (R185, log 2). -/
def State.openSlot (s : State) : State :=
  let s := { s with schedState := .running, phase := .running, reason := none }
  match s.slot? with
  | some _ => s
  | none =>
    match s.warriors.findIdx? (fun w => w.alive) with
    | some k => { s with cursor := k }
    | none => { s with warriors := [blankWarrior, blankWarrior], cursor := 0 }

/-- A configuration in which four bytes at `pc` can be fetched: the given one if it can, without its refusals of fetches
if one of them is in the way, and log 3's if its arena is not admitted or holds fewer than four bytes. -/
def fetchableConfig (cfg : BattleConfig) (pc : Word) : BattleConfig :=
  let cfg := if refusal? cfg = none && decide (4 ≤ cfg.arenaSize) then cfg else Config.beforeConfigure
  if firstRefused cfg pc 4 .fetch = none then cfg
  else { cfg with refused := cfg.refused.filter (fun r => r.kind != .fetch) }

/-- The four bytes of `w` put at `pc` from outside, with no notification. -/
def State.placeWord (s : State) (pc w : Word) : State :=
  { s with mem := (List.range 4).foldl (fun m i => Memory.write m (linAddr s.config pc i) (byteOf w i)) s.mem }

/-- `s` with the instruction word of the `nbits` low bits of `w` where the next step fetches: a battle under way, a live
warrior's slot open, the word's bytes at its pc (log 2, log 20). -/
def State.withFetchWord (s : State) (nbits w : Nat) : State :=
  let t := s.openSlot
  match t.slot? with
  | some wr => { t with config := fetchableConfig t.config wr.cpu.pc }.placeWord wr.cpu.pc (tableWord nbits w)
  | none => t

end Sys2Proof.Machine
end

