-- ==== Sys2Proof/Machine/HostPort.lean ====
section
/-! DEFINITION. The host's driving transactions `runRound` (R187) and `runToCompletion` (R188), written from the spec's
own pseudocode. `step` runs the same transitions one at a time. -/

namespace Sys2Proof.Machine

/-- `k` slots in a row. -/
def slots : Nat → State → Result
  | 0, s => .next s
  | k + 1, s =>
    match slot s with
    | .next t => slots k t
    | .fault r => .fault r
    | .refused r => .refused r

/-- `round()` (R181). -/
def oneRound (s : State) : Result := onNext State.endRound (slots s.warriors.length s.beginRound)

/-- `runRound()` after the first boundary: the round, the boundary after it, and whether the battle goes on (R187). -/
def roundAndBoundary (s : State) : Host.Outcome (State × Bool) Fault Refusal :=
  match oneRound { s with schedState := .running } with
  | .next t => .next (t.boundaryCheck, decide (t.boundaryCheck.schedState ≠ .ended))
  | .fault r => .fault r
  | .refused r => .refused r

/-- `runRound()` (R187). Before INIT has ended there is no battle and no work (log 13). -/
def runRound (s : State) : Host.Outcome (State × Bool) Fault Refusal :=
  match s.schedState with
  | .ended => .next (s, false)
  | .init =>
    match s.phase with
    | .loading => .next (s, false)
    | .running =>
      match refusal? s.config with
      | some e => .refused e
      | none =>
        match s.boundaryCheck.schedState with
        | .ended => .next (s.boundaryCheck, false)
        | .init | .running => roundAndBoundary s.boundaryCheck
  | .running =>
    match refusal? s.config with
    | some e => .refused e
    | none => roundAndBoundary s

/-- `runRound()` until it returns false, at most `k` times. -/
def runRounds : Nat → State → Result
  | 0, s => .next s
  | k + 1, s =>
    match runRound s with
    | .next (t, true) => runRounds k t
    | .next (t, false) => .next t
    | .fault r => .fault r
    | .refused r => .refused r

/-- `runToCompletion()` (R188): no battle takes more than `RoundCap` rounds (R189), so one call more always returns
false. -/
def runToCompletion (s : State) : Host.Outcome (State × Option Reason) Fault Refusal :=
  match runRounds (s.config.roundCap + 1) s with
  | .next t => .next (t, t.reason)
  | .fault r => .fault r
  | .refused r => .refused r

end Sys2Proof.Machine
end

