-- ==== Sys2Proof/Safety.lean ====
section
/-! DEFINITION. What the claims are stated in: what a run leaves unchanged, the effect of an instruction on its warrior's
context, on the arena and on the ports, the death of a warrior, the invariant of every reachable state, and safe steps. -/

namespace Sys2Proof.Machine

/-! ## Frames -/

/-- The configuration, the phase, the listener, the scheduler and the host port are as before: no instruction reaches any
of them (R33). The event log is not among them. -/
structure SameBattle (s t : State) : Prop where
  config : t.config = s.config
  phase : t.phase = s.phase
  listener : t.listener = s.listener
  schedState : t.schedState = s.schedState
  roundsCompleted : t.roundsCompleted = s.roundsCompleted
  cursor : t.cursor = s.cursor
  reason : t.reason = s.reason
  abortDraws : t.abortDraws = s.abortDraws
  pending : t.pending = s.pending
  answer : t.answer = s.answer

/-- Every warrior record but that of the open slot is as before, and there are as many (R26). -/
structure SameOthers (s t : State) : Prop where
  length : t.warriors.length = s.warriors.length
  others : ∀ k, k ≠ s.cursor → t.warriors[k]? = s.warriors[k]?

/-- Every byte of the arena reads as before and nothing was notified. -/
structure SameArena (s t : State) : Prop where
  bytes : ∀ a, Memory.read t.mem a = Memory.read s.mem a
  notifications : t.notifications = s.notifications

/-! ## Effects of an instruction of the warrior `w` whose slot is open in `s` -/

/-- In `t` the open slot is still `w`'s, alive and the same but for its CPU state: the pc is `pc`, x0 reads 0, `rd` (when
it is not x0) reads `v`, every other register is as before. -/
def ContextAfter (w : Warrior) (t : State) (rd : RegIdx) (v pc : Word) : Prop :=
  ∃ c : Cpu, t.slot? = some { w with cpu := c } ∧ c.pc = pc ∧
    ∀ r : RegIdx, c.read r = if r = 0#5 then 0#32 else if r = rd then v else w.cpu.read r

/-- `rd <- v`, the pc to `pc`, and nothing else: no byte, no notification, no event, no other warrior. With `rd` x0 no
register is written. -/
structure RegisterEffect (s : State) (w : Warrior) (t : State) (rd : RegIdx) (v pc : Word) : Prop where
  context : ContextAfter w t rd v pc
  arena : SameArena s t
  events : t.events = s.events
  battle : SameBattle s t
  others : SameOthers s t

/-- The pc to `pc`, and nothing else: no register is written (the destination is x0). -/
abbrev PcEffect (s : State) (w : Warrior) (t : State) (pc : Word) : Prop := RegisterEffect s w t 0#5 0#32 pc

/-- The low `n` bytes of `v` stored at the Word address `a`, the pc to `pc`, no register written: every byte outside the
`n` stored reads as before; byte `i` reads as byte `i` of `v` unless a later byte of the same store has the same linear
address (R56); one notification a byte, in ascending order, if a listener is registered (R57). -/
structure StoreEffect (s : State) (w : Warrior) (t : State) (a : Word) (n : Nat) (v pc : Word) : Prop where
  context : ContextAfter w t 0#5 0#32 pc
  outside : ∀ l, (∀ i, i < n → l ≠ linAddr s.config a i) → Memory.read t.mem l = Memory.read s.mem l
  stored : ∀ i, i < n → (∀ j, i < j → j < n → linAddr s.config a j ≠ linAddr s.config a i) →
    Memory.read t.mem (linAddr s.config a i) = v.extractLsb' (8 * i) 8
  notifications : t.notifications =
    if s.listener then
      s.notifications ++ (List.range n).map (fun i => ⟨linAddr s.config a i, v.extractLsb' (8 * i) 8, s.phase⟩)
    else s.notifications
  events : t.events = s.events
  battle : SameBattle s t
  others : SameOthers s t

/-- The warrior `w` of the open slot of `s` dies of `f` (R177, R179): it is marked dead with its registers and pc as they
were, `Death` is emitted, and nothing else changes. -/
structure DeathEffect (s : State) (w : Warrior) (t : State) (f : WarriorFault) : Prop where
  dead : t.warriors[s.cursor]? = some { w with alive := false }
  events : t.events = s.events ++ [.death s.cursor w.label f]
  arena : SameArena s t
  battle : SameBattle s t
  others : SameOthers s t

/-- `word` decodes to `i`, and `i` completes in `s` for the open slot's warrior `w`: `rd <- v`, the pc to `pc`, nothing
else. -/
structure Performs (word : Word) (i : Instr) (s : State) (w : Warrior) (rd : RegIdx) (v pc : Word) : Prop where
  decodes : decode word = .ok i
  completes : ∃ t, exec i s = .next t ∧ RegisterEffect s w t rd v pc

/-- `i` kills the open slot's warrior `w` with the fault `f`. -/
def Kills (i : Instr) (s : State) (w : Warrior) (f : WarriorFault) : Prop :=
  ∃ t, exec i s = .next t ∧ DeathEffect s w t f

/-- `word` is no instruction (R98): it decodes to nothing, and a live warrior that fetches it dies of `IllegalOpcode`, its
pc and the word recorded (R173, R176). -/
structure IllegalWord (word : Word) : Prop where
  rejected : ∃ e, decode word = .error e
  kills : ∀ (s : State) (w : Warrior), s.slot? = some w → fetch s w.cpu.pc = .ok word →
    ∃ t, warriorStep s = .next t ∧ DeathEffect s w t (.illegalOpcode w.cpu.pc word)

/-! ## The access check (R53) -/

/-- Each of the `n` bytes at `a` is admitted for `kind`. -/
def Admits (cfg : BattleConfig) (a : Word) (n : Nat) (kind : AccessKind) : Prop :=
  ∀ i, i < n → accessible cfg (linAddr cfg a i) kind = true

/-- Byte `j` is the first of the `n` bytes at `a` that is not admitted for `kind`. -/
structure RefusesFirst (cfg : BattleConfig) (a : Word) (n : Nat) (kind : AccessKind) (j : Nat) : Prop where
  inAccess : j < n
  refused : accessible cfg (linAddr cfg a j) kind = false
  before : ∀ i, i < j → accessible cfg (linAddr cfg a i) kind = true

/-! ## INIT (R214, R215) -/

/-- `InitArena(a)` as the configuration lists it: the last cell listed for the address, else the unlisted byte (log 5). -/
def initArenaByte (cfg : BattleConfig) (a : Nat) : Byte :=
  match cfg.initArena.reverse.find? (fun c => c.1 == a) with
  | some c => c.2
  | none => Config.unlistedByte

/-- Loading warrior `k` of the battle commits `v` at linear address `a` as its code byte `i` (R215). -/
def Loads (b : Battle) (k i : Nat) (a : Nat) (v : Byte) : Prop :=
  ∃ w, b.warriors[k]? = some w ∧ w.code[i]? = some v ∧ a = translateAddr b.config b.config.rvSegment (w.loadOffset.toNat + i)

/-! ## The invariant and safe steps -/

/-- What holds of every state a run reaches. -/
structure BattleInv (s : State) : Prop where
  /-- the memory is in its canonical form -/
  memWf : Memory.wf s.mem
  /-- every listed byte exists (R51, R63) -/
  memWithin : Memory.within s.mem s.config.arenaSize
  /-- the cursor is in 0..N (R31) -/
  cursorLe : s.cursor ≤ s.warriors.length
  /-- the reason is empty until the battle has ended, then one of the four (R31) -/
  reasonIff : s.reason.isSome = true ↔ s.schedState = .ended
  /-- while the phase is Loading no round has started (R210, R211) -/
  loadingInit : s.phase = .loading → s.schedState = .init
  /-- a battle under way has an admitted configuration and at least one warrior (R9, R212, R213) -/
  admitted : s.phase = .running → refusal? s.config = none ∧ 0 < s.warriors.length
  /-- before the first round no round is counted and the cursor is between rounds (R31, R217) -/
  beforeRounds : s.schedState = .init → s.roundsCompleted = 0 ∧ s.cursor = s.warriors.length
  /-- a round runs only below the cap (R185) -/
  belowCap : s.schedState = .running → s.roundsCompleted < s.config.roundCap
  /-- the rounds counted never exceed the cap (R33, R189) -/
  withinCap : s.schedState = .ended → s.roundsCompleted ≤ s.config.roundCap
  /-- a battle that goes on after a boundary has at least two live warriors (R185) -/
  survivors : s.schedState = .running → s.cursor = s.warriors.length → 2 ≤ s.aliveCount

/-- The step answers a next state: neither a fault nor a refusal. -/
def SafeStep (s : State) : Prop := ∃ t, step s = .next t

/-- The presented `configure`, if any, has an arena size the spec admits or is answered with a setup error (R9, R212). -/
def PendingAdmitted (s : State) : Prop :=
  ∀ b, s.pending = some b → setupError? b = none → sizeAdmitted b.config = true

/-- The scheduler has ended the battle for the reason `r` and nothing but the reason, the event log and the abort draws
has changed (R185). -/
structure EndedFor (s t : State) (r : Reason) : Prop where
  schedState : t.schedState = .ended
  reason : t.reason = some r
  events : t.events = s.events ++ [.finished r]
  config : t.config = s.config
  warriors : t.warriors = s.warriors
  mem : t.mem = s.mem
  phase : t.phase = s.phase
  listener : t.listener = s.listener
  notifications : t.notifications = s.notifications
  roundsCompleted : t.roundsCompleted = s.roundsCompleted
  cursor : t.cursor = s.cursor
  pending : t.pending = s.pending
  answer : t.answer = s.answer

/-- The same machine with every warrior put in one group (R27). -/
def State.regroup (s : State) (g : String) : State := { s with warriors := s.warriors.map fun w => { w with group := g } }

/-- The same but for the write-listener: whether one is registered, and what it has received (R30). -/
def SameButListener (s t : State) : Prop :=
  t = { s with listener := t.listener, notifications := t.notifications }

end Sys2Proof.Machine
end

