-- ==== Sys2Proof/Certificates/Slice0/Obligations.lean ====
section
/-! DEFINITION. The statements about the model. `s` is a state, `w` the live warrior whose slot is open in it; the effects
(`RegisterEffect`, `StoreEffect`, `DeathEffect`, …) are those of Safety.lean and hold each instruction's whole frame.
Instruction words are written out field by field from R82, not by the model's encoder; values are written as integer
arithmetic reduced modulo 2^32 where the spec says so. -/

open Sys2Proof Sys2Proof.Machine

/-! ## Encoding and decoding -/

/-- R82 to R97: every instruction the encoding can hold is read back from its word, operands and all. -/
def Obligations.DecodeReadsBackEncode : Prop :=
  ∀ i : Instr, i.wellFormed = true → decode (encode i) = .ok i

/-- The other direction: a decoded instruction is one the encoding can hold, and its word is the one decoded, but for the
selector bits inst[31:25] that SLL and SLLI do not check (R92, R93, R114, R128). -/
def Obligations.EncodeGivesBackTheDecodedWord : Prop :=
  ∀ (word : Word) (i : Instr), decode word = .ok i →
    i.wellFormed = true ∧
    encode i = match i with
      | .sll _ _ _ => word &&& 0x01FFFFFF#32
      | .slli _ _ _ => word &&& 0x01FFFFFF#32
      | _ => word

/-- R98, R99: a word matches at most one row of the opcode table; it decodes exactly when it matches one, and then to an
instruction of that row; one that matches none is an illegal word. -/
def Obligations.EachWordMatchesOneRowOrKills : Prop :=
  ∀ word : Word,
    (∀ r ∈ opcodeTable, ∀ q ∈ opcodeTable, r.matches word = true → q.matches word = true → r = q) ∧
    ((∃ i, decode word = .ok i) ↔ ∃ r ∈ opcodeTable, r.matches word = true) ∧
    (∀ i, decode word = .ok i → i.row ∈ opcodeTable ∧ i.row.matches word = true) ∧
    ((∀ r ∈ opcodeTable, r.matches word = false) → IllegalWord word)

/-- R83 to R87: each format's immediate as a sum of the word's bits, its range, and that offsets are even. -/
def Obligations.ImmediatesAreTheSpecsSums : Prop :=
  ∀ word : Word,
    let bits : Nat → Nat → Int := fun lo len => ((word.toNat / 2 ^ lo % 2 ^ len : Nat) : Int)
    (simm12 (immIOf word)).toInt = bits 20 11 - 2048 * bits 31 1 ∧
    (simm12 (immSOf word)).toInt = 32 * bits 25 6 + bits 7 5 - 2048 * bits 31 1 ∧
    (branchOffset (immBOf word)).toInt = 2048 * bits 7 1 + 32 * bits 25 6 + 2 * bits 8 4 - 4096 * bits 31 1 ∧
    ((upperImm (immUOf word)).toNat : Int) = 4096 * bits 12 20 ∧
    (jumpOffset (immJOf word)).toInt = 4096 * bits 12 8 + 2048 * bits 20 1 + 2 * bits 21 10 - 1048576 * bits 31 1 ∧
    (-2048 ≤ (simm12 (immIOf word)).toInt ∧ (simm12 (immIOf word)).toInt ≤ 2047) ∧
    (-2048 ≤ (simm12 (immSOf word)).toInt ∧ (simm12 (immSOf word)).toInt ≤ 2047) ∧
    (-4096 ≤ (branchOffset (immBOf word)).toInt ∧ (branchOffset (immBOf word)).toInt ≤ 4094 ∧
      (branchOffset (immBOf word)).toInt % 2 = 0) ∧
    (upperImm (immUOf word)).toNat % 4096 = 0 ∧
    (-1048576 ≤ (jumpOffset (immJOf word)).toInt ∧ (jumpOffset (immJOf word)).toInt ≤ 1048574 ∧
      (jumpOffset (immJOf word)).toInt % 2 = 0)

/-- Sanity: words of the spec's own vectors (95_test_vectors.md) decode as it says, a few of them to nothing. -/
def Obligations.SpecWordsDecodeAsTheSpecSays : Prop :=
  decode 0x402081B3#32 = .ok (.sub 3 1 2) ∧
  decode 0x022091B3#32 = .ok (.sll 3 1 2) ∧
  decode 0xFFF0B113#32 = .ok (.sltiu 2 1 0xFFF) ∧
  decode 0x41F0D113#32 = .ok (.srai 2 1 31) ∧
  decode 0x12345037#32 = .ok (.lui 0 0x12345) ∧
  decode 0x7E000FE3#32 = .ok (.beq 0 0 4094) ∧
  decode 0x7FFFF0EF#32 = .ok (.jal 1 0xFFFFE) ∧
  decode 0xFFF100E7#32 = .ok (.jalr 1 2 0xFFF) ∧
  decode 0x7FF0A103#32 = .ok (.lw 2 1 2047) ∧
  decode 0xFE209F23#32 = .ok (.sh 2 1 0xFFE) ∧
  (∀ word ∈ [0x00000000#32, 0xFFFFFFFF#32, 0x0000000F#32, 0x00000073#32, 0x022081B3#32, 0x8040D113#32, 0x0000B103#32,
      0x0020B023#32, 0x0020A063#32, 0x000090E7#32], ∃ e, decode word = .error e)

/-! ## Integer instructions (40_integer.md) -/

/-- R112, R113: sum and difference modulo 2^32, never a fault. -/
def Obligations.AddAndSubAreModulo : Prop :=
  ∀ (s : State) (w : Warrior) (rd rs1 rs2 : RegIdx), s.slot? = some w →
    let x := w.cpu.read rs1
    let y := w.cpu.read rs2
    Performs (0b0000000#7 ++ rs2 ++ rs1 ++ 0b000#3 ++ rd ++ 0b0110011#7) (.add rd rs1 rs2) s w rd
      (BitVec.ofNat 32 ((x.toNat + y.toNat) % 2 ^ 32)) (w.cpu.pc + 4#32) ∧
    Performs (0b0100000#7 ++ rs2 ++ rs1 ++ 0b000#3 ++ rd ++ 0b0110011#7) (.sub rd rs1 rs2) s w rd
      (BitVec.ofInt 32 ((x.toNat : Int) - y.toNat)) (w.cpu.pc + 4#32)

/-- R114, R118, R119: shifts by the low five bits of x[rs2]; SLL with any funct7, the right shifts with their own two and
an illegal word with any other. -/
def Obligations.RegisterShiftsUseFiveBits : Prop :=
  ∀ (s : State) (w : Warrior) (rd rs1 rs2 : RegIdx), s.slot? = some w →
    let x := w.cpu.read rs1
    let n := (w.cpu.read rs2).toNat % 32
    (∀ funct7 : BitVec 7, Performs (funct7 ++ rs2 ++ rs1 ++ 0b001#3 ++ rd ++ 0b0110011#7) (.sll rd rs1 rs2) s w rd
      (BitVec.ofNat 32 (x.toNat * 2 ^ n)) (w.cpu.pc + 4#32)) ∧
    Performs (0b0000000#7 ++ rs2 ++ rs1 ++ 0b101#3 ++ rd ++ 0b0110011#7) (.srl rd rs1 rs2) s w rd
      (BitVec.ofNat 32 (x.toNat / 2 ^ n)) (w.cpu.pc + 4#32) ∧
    Performs (0b0100000#7 ++ rs2 ++ rs1 ++ 0b101#3 ++ rd ++ 0b0110011#7) (.sra rd rs1 rs2) s w rd
      (BitVec.ofInt 32 (x.toInt / 2 ^ n)) (w.cpu.pc + 4#32) ∧
    ∀ funct7 : BitVec 7, funct7 ≠ 0b0000000#7 → funct7 ≠ 0b0100000#7 →
      IllegalWord (funct7 ++ rs2 ++ rs1 ++ 0b101#3 ++ rd ++ 0b0110011#7)

/-- R115, R116: 1 or 0 as x[rs1] is less than x[rs2], signed or unsigned. -/
def Obligations.SetLessThanGivesOneOrZero : Prop :=
  ∀ (s : State) (w : Warrior) (rd rs1 rs2 : RegIdx), s.slot? = some w →
    let x := w.cpu.read rs1
    let y := w.cpu.read rs2
    Performs (0b0000000#7 ++ rs2 ++ rs1 ++ 0b010#3 ++ rd ++ 0b0110011#7) (.slt rd rs1 rs2) s w rd
      (if x.toInt < y.toInt then 1#32 else 0#32) (w.cpu.pc + 4#32) ∧
    Performs (0b0000000#7 ++ rs2 ++ rs1 ++ 0b011#3 ++ rd ++ 0b0110011#7) (.sltu rd rs1 rs2) s w rd
      (if x.toNat < y.toNat then 1#32 else 0#32) (w.cpu.pc + 4#32)

/-- R117, R120, R121: bit by bit. -/
def Obligations.RegisterLogicIsBitwise : Prop :=
  ∀ (s : State) (w : Warrior) (rd rs1 rs2 : RegIdx), s.slot? = some w →
    let x := w.cpu.read rs1
    let y := w.cpu.read rs2
    Performs (0b0000000#7 ++ rs2 ++ rs1 ++ 0b100#3 ++ rd ++ 0b0110011#7) (.xor rd rs1 rs2) s w rd (x ^^^ y)
      (w.cpu.pc + 4#32) ∧
    Performs (0b0000000#7 ++ rs2 ++ rs1 ++ 0b110#3 ++ rd ++ 0b0110011#7) (.or rd rs1 rs2) s w rd (x ||| y)
      (w.cpu.pc + 4#32) ∧
    Performs (0b0000000#7 ++ rs2 ++ rs1 ++ 0b111#3 ++ rd ++ 0b0110011#7) (.and rd rs1 rs2) s w rd (x &&& y)
      (w.cpu.pc + 4#32)

/-- R122 to R124: the immediate is sign-extended; SLTIU then compares unsigned. -/
def Obligations.AddImmediateAndComparesImmediate : Prop :=
  ∀ (s : State) (w : Warrior) (rd rs1 : RegIdx) (imm : BitVec 12), s.slot? = some w →
    let x := w.cpu.read rs1
    Performs (imm ++ rs1 ++ 0b000#3 ++ rd ++ 0b0010011#7) (.addi rd rs1 imm) s w rd
      (BitVec.ofInt 32 (x.toInt + imm.toInt)) (w.cpu.pc + 4#32) ∧
    Performs (imm ++ rs1 ++ 0b010#3 ++ rd ++ 0b0010011#7) (.slti rd rs1 imm) s w rd
      (if x.toInt < imm.toInt then 1#32 else 0#32) (w.cpu.pc + 4#32) ∧
    Performs (imm ++ rs1 ++ 0b011#3 ++ rd ++ 0b0010011#7) (.sltiu rd rs1 imm) s w rd
      (if x.toNat < (imm.signExtend 32).toNat then 1#32 else 0#32) (w.cpu.pc + 4#32)

/-- R125 to R127: bit by bit with the sign-extended immediate. -/
def Obligations.ImmediateLogicIsBitwise : Prop :=
  ∀ (s : State) (w : Warrior) (rd rs1 : RegIdx) (imm : BitVec 12), s.slot? = some w →
    let x := w.cpu.read rs1
    Performs (imm ++ rs1 ++ 0b100#3 ++ rd ++ 0b0010011#7) (.xori rd rs1 imm) s w rd (x ^^^ imm.signExtend 32)
      (w.cpu.pc + 4#32) ∧
    Performs (imm ++ rs1 ++ 0b110#3 ++ rd ++ 0b0010011#7) (.ori rd rs1 imm) s w rd (x ||| imm.signExtend 32)
      (w.cpu.pc + 4#32) ∧
    Performs (imm ++ rs1 ++ 0b111#3 ++ rd ++ 0b0010011#7) (.andi rd rs1 imm) s w rd (x &&& imm.signExtend 32)
      (w.cpu.pc + 4#32)

/-- R128 to R130: shifts by inst[24:20]; SLLI with any inst[31:25], the right shifts with their own two and an illegal word
with any other. -/
def Obligations.ImmediateShiftsUseShamt : Prop :=
  ∀ (s : State) (w : Warrior) (rd rs1 : RegIdx) (shamt : BitVec 5), s.slot? = some w →
    let x := w.cpu.read rs1
    (∀ high : BitVec 7, Performs (high ++ shamt ++ rs1 ++ 0b001#3 ++ rd ++ 0b0010011#7) (.slli rd rs1 shamt) s w rd
      (BitVec.ofNat 32 (x.toNat * 2 ^ shamt.toNat)) (w.cpu.pc + 4#32)) ∧
    Performs (0b0000000#7 ++ shamt ++ rs1 ++ 0b101#3 ++ rd ++ 0b0010011#7) (.srli rd rs1 shamt) s w rd
      (BitVec.ofNat 32 (x.toNat / 2 ^ shamt.toNat)) (w.cpu.pc + 4#32) ∧
    Performs (0b0100000#7 ++ shamt ++ rs1 ++ 0b101#3 ++ rd ++ 0b0010011#7) (.srai rd rs1 shamt) s w rd
      (BitVec.ofInt 32 (x.toInt / 2 ^ shamt.toNat)) (w.cpu.pc + 4#32) ∧
    ∀ high : BitVec 7, high ≠ 0b0000000#7 → high ≠ 0b0100000#7 →
      IllegalWord (high ++ shamt ++ rs1 ++ 0b101#3 ++ rd ++ 0b0010011#7)

/-- R131, R132: the upper immediate, alone or added to the pc of the instruction itself. -/
def Obligations.UpperImmediates : Prop :=
  ∀ (s : State) (w : Warrior) (rd : RegIdx) (imm : BitVec 20), s.slot? = some w →
    Performs (imm ++ rd ++ 0b0110111#7) (.lui rd imm) s w rd (BitVec.ofNat 32 (imm.toNat * 4096)) (w.cpu.pc + 4#32) ∧
    Performs (imm ++ rd ++ 0b0010111#7) (.auipc rd imm) s w rd
      (BitVec.ofNat 32 (w.cpu.pc.toNat + imm.toNat * 4096)) (w.cpu.pc + 4#32)

/-! ## Control transfer (41_control.md) -/

/-- R151, R152: the pc of the branch plus the offset when the operands are equal (BEQ) or not (BNE), else pc + 4. -/
def Obligations.EqualityBranches : Prop :=
  ∀ (s : State) (w : Warrior) (rs1 rs2 : RegIdx) (b12 b11 : BitVec 1) (b10 : BitVec 6) (b4 : BitVec 4),
    s.slot? = some w →
    let x := w.cpu.read rs1
    let y := w.cpu.read rs2
    let offset : BitVec 13 := b12 ++ b11 ++ b10 ++ b4 ++ 0#1
    let target := BitVec.ofInt 32 (w.cpu.pc.toInt + offset.toInt)
    Performs (b12 ++ b10 ++ rs2 ++ rs1 ++ 0b000#3 ++ b4 ++ b11 ++ 0b1100011#7) (.beq rs1 rs2 offset) s w 0#5 0#32
      (if x = y then target else w.cpu.pc + 4#32) ∧
    Performs (b12 ++ b10 ++ rs2 ++ rs1 ++ 0b001#3 ++ b4 ++ b11 ++ 0b1100011#7) (.bne rs1 rs2 offset) s w 0#5 0#32
      (if x ≠ y then target else w.cpu.pc + 4#32)

/-- R153 to R156: the same on the signed and unsigned order; equal operands take BGE and BGEU. -/
def Obligations.OrderBranches : Prop :=
  ∀ (s : State) (w : Warrior) (rs1 rs2 : RegIdx) (b12 b11 : BitVec 1) (b10 : BitVec 6) (b4 : BitVec 4),
    s.slot? = some w →
    let x := w.cpu.read rs1
    let y := w.cpu.read rs2
    let offset : BitVec 13 := b12 ++ b11 ++ b10 ++ b4 ++ 0#1
    let target := BitVec.ofInt 32 (w.cpu.pc.toInt + offset.toInt)
    Performs (b12 ++ b10 ++ rs2 ++ rs1 ++ 0b100#3 ++ b4 ++ b11 ++ 0b1100011#7) (.blt rs1 rs2 offset) s w 0#5 0#32
      (if x.toInt < y.toInt then target else w.cpu.pc + 4#32) ∧
    Performs (b12 ++ b10 ++ rs2 ++ rs1 ++ 0b101#3 ++ b4 ++ b11 ++ 0b1100011#7) (.bge rs1 rs2 offset) s w 0#5 0#32
      (if y.toInt ≤ x.toInt then target else w.cpu.pc + 4#32) ∧
    Performs (b12 ++ b10 ++ rs2 ++ rs1 ++ 0b110#3 ++ b4 ++ b11 ++ 0b1100011#7) (.bltu rs1 rs2 offset) s w 0#5 0#32
      (if x.toNat < y.toNat then target else w.cpu.pc + 4#32) ∧
    Performs (b12 ++ b10 ++ rs2 ++ rs1 ++ 0b111#3 ++ b4 ++ b11 ++ 0b1100011#7) (.bgeu rs1 rs2 offset) s w 0#5 0#32
      (if y.toNat ≤ x.toNat then target else w.cpu.pc + 4#32)

/-- R157: the return address to rd, the pc to the pc of the JAL plus the offset; rd x0 is a plain jump. -/
def Obligations.JumpAndLink : Prop :=
  ∀ (s : State) (w : Warrior) (rd : RegIdx) (b20 b11 : BitVec 1) (b19 : BitVec 8) (b10 : BitVec 10),
    s.slot? = some w →
    let offset : BitVec 21 := b20 ++ b19 ++ b11 ++ b10 ++ 0#1
    Performs (b20 ++ b10 ++ b11 ++ b19 ++ rd ++ 0b1101111#7) (.jal rd offset) s w rd (w.cpu.pc + 4#32)
      (BitVec.ofInt 32 (w.cpu.pc.toInt + offset.toInt))

/-- R158: the pc to the old x[rs1] plus the immediate, bit 0 kept, the return address to rd; any other funct3 is
illegal. -/
def Obligations.JumpAndLinkRegister : Prop :=
  ∀ (s : State) (w : Warrior) (rd rs1 : RegIdx) (imm : BitVec 12), s.slot? = some w →
    Performs (imm ++ rs1 ++ 0b000#3 ++ rd ++ 0b1100111#7) (.jalr rd rs1 imm) s w rd (w.cpu.pc + 4#32)
      (BitVec.ofInt 32 ((w.cpu.read rs1).toInt + imm.toInt)) ∧
    ∀ funct3 : BitVec 3, funct3 ≠ 0b000#3 → IllegalWord (imm ++ rs1 ++ funct3 ++ rd ++ 0b1100111#7)

/-! ## Loads and stores (42_loadstore.md) -/

/-- R161, R164, R169: the byte at EA, signed or unsigned; refused, the warrior dies, whatever rd. -/
def Obligations.ByteLoads : Prop :=
  ∀ (s : State) (w : Warrior) (rd rs1 : RegIdx) (imm : BitVec 12), s.slot? = some w →
    let ea := w.cpu.read rs1 + imm.signExtend 32
    let lin := linAddr s.config ea 0
    let byte := Memory.read s.mem lin
    (accessible s.config lin .read = true →
      Performs (imm ++ rs1 ++ 0b000#3 ++ rd ++ 0b0000011#7) (.lb rd rs1 imm) s w rd (BitVec.ofInt 32 byte.toInt)
        (w.cpu.pc + 4#32) ∧
      Performs (imm ++ rs1 ++ 0b100#3 ++ rd ++ 0b0000011#7) (.lbu rd rs1 imm) s w rd (BitVec.ofNat 32 byte.toNat)
        (w.cpu.pc + 4#32)) ∧
    (accessible s.config lin .read = false →
      Kills (.lb rd rs1 imm) s w (.memoryFault lin .read) ∧ Kills (.lbu rd rs1 imm) s w (.memoryFault lin .read))

/-- R162, R165: the two bytes at EA, little-endian, signed or unsigned, at any alignment; the fault names the first refused
byte. -/
def Obligations.HalfwordLoads : Prop :=
  ∀ (s : State) (w : Warrior) (rd rs1 : RegIdx) (imm : BitVec 12), s.slot? = some w →
    let ea := w.cpu.read rs1 + imm.signExtend 32
    let half : BitVec 16 := Memory.read s.mem (linAddr s.config ea 1) ++ Memory.read s.mem (linAddr s.config ea 0)
    (Admits s.config ea 2 .read →
      Performs (imm ++ rs1 ++ 0b001#3 ++ rd ++ 0b0000011#7) (.lh rd rs1 imm) s w rd (BitVec.ofInt 32 half.toInt)
        (w.cpu.pc + 4#32) ∧
      Performs (imm ++ rs1 ++ 0b101#3 ++ rd ++ 0b0000011#7) (.lhu rd rs1 imm) s w rd (BitVec.ofNat 32 half.toNat)
        (w.cpu.pc + 4#32)) ∧
    ∀ j, RefusesFirst s.config ea 2 .read j →
      Kills (.lh rd rs1 imm) s w (.memoryFault (linAddr s.config ea j) .read) ∧
      Kills (.lhu rd rs1 imm) s w (.memoryFault (linAddr s.config ea j) .read)

/-- R163: the four bytes at EA, little-endian; and a word stored and reloaded at the same address is the same word. The
reload is of an admitted arena of at least four bytes: in a smaller one two bytes of the store fall on one (R56). -/
def Obligations.WordLoads : Prop :=
  ∀ (s : State) (w : Warrior) (rd rs1 : RegIdx) (imm : BitVec 12), s.slot? = some w →
    let ea := w.cpu.read rs1 + imm.signExtend 32
    let byte := fun i => Memory.read s.mem (linAddr s.config ea i)
    (Admits s.config ea 4 .read →
      Performs (imm ++ rs1 ++ 0b010#3 ++ rd ++ 0b0000011#7) (.lw rd rs1 imm) s w rd
        (byte 3 ++ byte 2 ++ byte 1 ++ byte 0) (w.cpu.pc + 4#32)) ∧
    (∀ j, RefusesFirst s.config ea 4 .read j →
      Kills (.lw rd rs1 imm) s w (.memoryFault (linAddr s.config ea j) .read)) ∧
    ∀ rs2 : RegIdx, Memory.wf s.mem → sizeAdmitted s.config = true → 4 ≤ s.config.arenaSize →
      Admits s.config ea 4 .write → Admits s.config ea 4 .read →
      ∃ t u c, exec (.sw rs2 rs1 imm) s = .next t ∧ exec (.lw rd rs1 imm) t = .next u ∧
        u.slot? = some { w with cpu := c } ∧ (rd ≠ 0#5 → c.read rd = w.cpu.read rs2)

/-- R166: the low byte of x[rs2] stored at EA; refused, nothing is written and the warrior dies. The memory is in its
canonical form (`BattleInv.memWf`). -/
def Obligations.ByteStore : Prop :=
  ∀ (s : State) (w : Warrior) (rs1 rs2 : RegIdx) (high : BitVec 7) (low : BitVec 5), s.slot? = some w →
    Memory.wf s.mem →
    let imm : BitVec 12 := high ++ low
    let ea := w.cpu.read rs1 + imm.signExtend 32
    decode (high ++ rs2 ++ rs1 ++ 0b000#3 ++ low ++ 0b0100011#7) = .ok (.sb rs2 rs1 imm) ∧
    (accessible s.config (linAddr s.config ea 0) .write = true →
      ∃ t, exec (.sb rs2 rs1 imm) s = .next t ∧ StoreEffect s w t ea 1 (w.cpu.read rs2) (w.cpu.pc + 4#32)) ∧
    (accessible s.config (linAddr s.config ea 0) .write = false →
      Kills (.sb rs2 rs1 imm) s w (.memoryFault (linAddr s.config ea 0) .write))

/-- R167: the low halfword, little-endian, two notifications; refused, neither byte is written. Where the two bytes fall on
one (an arena of one byte) the later wins (R56). -/
def Obligations.HalfwordStore : Prop :=
  ∀ (s : State) (w : Warrior) (rs1 rs2 : RegIdx) (high : BitVec 7) (low : BitVec 5), s.slot? = some w →
    Memory.wf s.mem →
    let imm : BitVec 12 := high ++ low
    let ea := w.cpu.read rs1 + imm.signExtend 32
    decode (high ++ rs2 ++ rs1 ++ 0b001#3 ++ low ++ 0b0100011#7) = .ok (.sh rs2 rs1 imm) ∧
    (Admits s.config ea 2 .write →
      ∃ t, exec (.sh rs2 rs1 imm) s = .next t ∧ StoreEffect s w t ea 2 (w.cpu.read rs2) (w.cpu.pc + 4#32)) ∧
    ∀ j, RefusesFirst s.config ea 2 .write j →
      Kills (.sh rs2 rs1 imm) s w (.memoryFault (linAddr s.config ea j) .write)

/-- R168: the whole word, byte by byte with wrap-around; refused, no byte is written. -/
def Obligations.WordStore : Prop :=
  ∀ (s : State) (w : Warrior) (rs1 rs2 : RegIdx) (high : BitVec 7) (low : BitVec 5), s.slot? = some w →
    Memory.wf s.mem →
    let imm : BitVec 12 := high ++ low
    let ea := w.cpu.read rs1 + imm.signExtend 32
    decode (high ++ rs2 ++ rs1 ++ 0b010#3 ++ low ++ 0b0100011#7) = .ok (.sw rs2 rs1 imm) ∧
    (Admits s.config ea 4 .write →
      ∃ t, exec (.sw rs2 rs1 imm) s = .next t ∧ StoreEffect s w t ea 4 (w.cpu.read rs2) (w.cpu.pc + 4#32)) ∧
    ∀ j, RefusesFirst s.config ea 4 .write j →
      Kills (.sw rs2 rs1 imm) s w (.memoryFault (linAddr s.config ea j) .write)

/-! ## All instructions -/

/-- No instruction reaches the configuration, the phase, the listener, the scheduler, the host port or another warrior's
record (R26, R33). -/
def Obligations.NoInstructionReachesControlState : Prop :=
  ∀ (i : Instr) (s t : State), exec i s = .next t → SameBattle s t ∧ SameOthers s t

/-- Only a store changes the arena or notifies (R62); only a load or a store can kill its warrior or emit an event
(R174). -/
def Obligations.OnlyLoadsAndStoresTouchTheArena : Prop :=
  ∀ (i : Instr) (s t : State), exec i s = .next t →
    (match i with
      | .sb _ _ _ | .sh _ _ _ | .sw _ _ _ => True
      | _ => SameArena s t) ∧
    (match i with
      | .lb _ _ _ | .lh _ _ _ | .lw _ _ _ | .lbu _ _ _ | .lhu _ _ _ | .sb _ _ _ | .sh _ _ _ | .sw _ _ _ => True
      | _ => t.events = s.events ∧ ∃ w, t.slot? = some w)

/-- R26: what a warrior's step does to the warrior and the arena does not depend on any other warrior, on the scheduler or
on the ports: two machines that agree on the warrior, the configuration and the arena leave the same. -/
def Obligations.OtherContextsCannotBeRead : Prop :=
  ∀ (s t s' t' : State) (w : Warrior), s.slot? = some w → t.slot? = some w → s.config = t.config → s.mem = t.mem →
    warriorStep s = .next s' → warriorStep t = .next t' →
    s'.warriors[s.cursor]? = t'.warriors[t.cursor]? ∧ s'.mem = t'.mem

/-! ## Memory (20_memory.md) -/

/-- R52: for an admitted arena the linear address of byte `i` of an access at `a` is the base plus `a + i`, modulo the
arena's size, whether `a` is read as unsigned or as signed; it lies in the arena. -/
def Obligations.LinearAddressesWrap : Prop :=
  ∀ (cfg : BattleConfig) (a : Word) (i : Nat), sizeAdmitted cfg = true →
    linAddr cfg a i = (cfg.rvSegment * cfg.segmentSize + a.toNat + i) % cfg.arenaSize ∧
    ((linAddr cfg a i : Nat) : Int) =
      ((cfg.rvSegment * cfg.segmentSize : Nat) + a.toInt + i) % (cfg.arenaSize : Int) ∧
    linAddr cfg a i < cfg.arenaSize

/-- R54: the value of the n bytes at `a` is the sum of mem[lin_i] * 2^(8 i), for data and for fetch; and a byte of a word
written earlier is that byte of the word (in an admitted arena of at least four bytes). -/
def Obligations.ValuesAreLittleEndian : Prop :=
  (∀ (s : State) (a v : Word) (n : Nat) (kind : AccessKind), n = 1 ∨ n = 2 ∨ n = 4 → memRead s a n kind = .ok v →
    v.toNat = ((List.range n).map fun i => (Memory.read s.mem (linAddr s.config a i)).toNat * 2 ^ (8 * i)).sum) ∧
  ∀ (s t : State) (a v u : Word) (i : Nat) (kind : AccessKind), Memory.wf s.mem → sizeAdmitted s.config = true →
    4 ≤ s.config.arenaSize → i < 4 → memWrite s a 4 v = .ok t → memRead t (a + BitVec.ofNat 32 i) 1 kind = .ok u →
    u.toNat = v.toNat / 2 ^ (8 * i) % 256

/-- The memory's canonical form: two memories in it that read alike at every address are the same list. -/
def Obligations.EqualReadingsEqualMemories : Prop :=
  ∀ m q : Memory, Memory.wf m → Memory.wf q → (∀ a, Memory.read m a = Memory.read q a) → m = q

/-! ## The step of a warrior and its faults (60_exceptions.md) -/

/-- R171 to R173, R178: fetch, then decode, then execute; the first fault in that order, with the info of R176, is the one
the warrior dies of. -/
def Obligations.WarriorStepFetchesDecodesExecutes : Prop :=
  ∀ (s : State) (w : Warrior), s.slot? = some w →
    let pc := w.cpu.pc
    let byte := fun i => Memory.read s.mem (linAddr s.config pc i)
    let inst : Word := byte 3 ++ byte 2 ++ byte 1 ++ byte 0
    (∀ j, RefusesFirst s.config pc 4 .fetch j →
      ∃ t, warriorStep s = .next t ∧ DeathEffect s w t (.memoryFault (linAddr s.config pc j) .fetch)) ∧
    (Admits s.config pc 4 .fetch → ∀ e, decode inst = .error e →
      ∃ t, warriorStep s = .next t ∧ DeathEffect s w t (.illegalOpcode pc inst)) ∧
    (Admits s.config pc 4 .fetch → ∀ i, decode inst = .ok i → warriorStep s = exec i s)

/-- R177: a step after which its warrior is dead has written no register, not changed the pc, written no byte and notified
nothing; it has emitted that death. -/
def Obligations.FaultsArePrecise : Prop :=
  ∀ (s t : State) (w u : Warrior), s.slot? = some w → warriorStep s = .next t → t.warriors[s.cursor]? = some u →
    u.alive = false → ∃ f, DeathEffect s w t f

/-- A machine step with a slot open and an instruction at the pc runs that instruction, moves the cursor and, after the
round's last slot, closes the round (R171, R181; log 1). -/
def Obligations.StepRunsTheDecodedInstruction : Prop :=
  ∀ (s : State) (w : Warrior) (i : Instr), s.schedState = .running → refusal? s.config = none → s.slot? = some w →
    Admits s.config w.cpu.pc 4 .fetch →
    decode (Memory.read s.mem (linAddr s.config w.cpu.pc 3) ++ Memory.read s.mem (linAddr s.config w.cpu.pc 2) ++
      Memory.read s.mem (linAddr s.config w.cpu.pc 1) ++ Memory.read s.mem (linAddr s.config w.cpu.pc 0)) = .ok i →
    step s = onNext (fun t => t.nextSlot.closeRound) (exec i s)

/-- The interface of the host: `withFetchWord` puts a word where the next step fetches it, so that the step runs the
instruction it decodes to, from any state whose memory is in its canonical form. The model's own (log 2, log 20). -/
def Obligations.WithFetchWordIsFetchedNext : Prop :=
  ∀ (s : State) (word : Word) (i : Instr), Memory.wf s.mem → decode word = .ok i →
    let u := s.withFetchWord 32 word.toNat
    (∃ w, u.slot? = some w) ∧ decodeTableWord 32 word.toNat = some i ∧
    step u = onNext (fun t => t.nextSlot.closeRound) (exec i u)

/-! ## The scheduler (60_exceptions.md) -/

/-- R181, R184: in a round, the machine step is the live warrior's step and the cursor moved on; a dead warrior's slot is
skipped. After the last slot the cursor is N, the round is counted and `RoundCompleted` emitted with its number, from 1
(R190), and the boundary is checked. Between two rounds the step opens slot 0. -/
def Obligations.RoundGrantsSlotsInIndexOrder : Prop :=
  ∀ s : State, s.schedState = .running → refusal? s.config = none → 0 < s.warriors.length →
    let ended : State → State := fun t =>
      { t with
        cursor := s.warriors.length
        roundsCompleted := s.roundsCompleted + 1
        events := t.events ++ [.roundCompleted (s.roundsCompleted + 1)] }
    (∀ w, s.slot? = some w → ∃ t, warriorStep s = .next t ∧ t.cursor = s.cursor ∧ t.roundsCompleted = s.roundsCompleted ∧
      t.warriors.length = s.warriors.length ∧
      (s.cursor + 1 < s.warriors.length → step s = .next { t with cursor := s.cursor + 1 }) ∧
      (s.cursor + 1 = s.warriors.length → step s = .next (ended t).boundaryCheck)) ∧
    (∀ w, s.warriors[s.cursor]? = some w → w.alive = false →
      (s.cursor + 1 < s.warriors.length → step s = .next { s with cursor := s.cursor + 1 }) ∧
      (s.cursor + 1 = s.warriors.length → step s = .next (ended s).boundaryCheck)) ∧
    (s.cursor = s.warriors.length → step s = .next { s with cursor := 0 })

/-- R185, R186: the first of the four conditions that holds ends the battle, with its reason and its event, and changes
nothing else; with none, the battle goes on. Each boundary takes one draw of the abort input, which is the model's form of
it (R32, log 8). -/
def Obligations.BoundaryGivesTheFirstReason : Prop :=
  ∀ s : State,
    let a := (s.warriors.filter fun w => w.alive).length
    let t := s.boundaryCheck
    t.abortDraws = s.abortDraws.tail ∧
    (a = 0 → EndedFor s t .noSurvivors) ∧
    (a = 1 → EndedFor s t .singleSurvivor) ∧
    (2 ≤ a → s.config.roundCap ≤ s.roundsCompleted → EndedFor s t .roundCap) ∧
    (2 ≤ a → s.roundsCompleted < s.config.roundCap → s.abortDraws.head? = some true → EndedFor s t .aborted) ∧
    (2 ≤ a → s.roundsCompleted < s.config.roundCap → s.abortDraws.head? ≠ some true →
      t = { s with abortDraws := s.abortDraws.tail })

/-- R182: no transition leaves ENDED and none goes back to INIT; once INIT has ended the phase stays Running (R211) and the
configuration stays as it is (R28, R33). -/
def Obligations.TheBattleOnlyMovesForward : Prop :=
  ∀ s t : State, step s = .next t →
    (s.schedState = .ended → t = s) ∧
    (s.schedState = .running → t.schedState ≠ .init) ∧
    (s.phase = .running → t.phase = .running ∧ t.config = s.config ∧ t.warriors.length = s.warriors.length)

/-- R26: a step changes at most the record of the live warrior whose slot it is, and of that only the CPU state and the
liveness. -/
def Obligations.OnlyTheSlotsWarriorChanges : Prop :=
  ∀ (s t : State) (k : Nat) (u : Warrior), step s = .next t → s.phase = .running → s.warriors[k]? = some u →
    ∃ v, t.warriors[k]? = some v ∧ v = { u with cpu := v.cpu, alive := v.alive } ∧
      (v ≠ u → s.schedState = .running ∧ k = s.cursor ∧ u.alive = true)

/-- R24: nothing sets `alive` back to true, and a dead warrior's record never changes again, however long the battle
runs. -/
def Obligations.DeathIsPermanent : Prop :=
  ∀ (n : Nat) (s t : State) (k : Nat) (u : Warrior), s.phase = .running → s.warriors[k]? = some u → u.alive = false →
    Host.Core.run Sys2Proof.core n s = .next t → t.warriors[k]? = some u

/-- The event log and the notification log only grow. That the notifications are kept as a log, and that INIT clears
neither log, is the model's choice (log 9); R57 and R190 give the emission. -/
def Obligations.LogsOnlyGrow : Prop :=
  ∀ s t : State, step s = .next t → s.events <+: t.events ∧ s.notifications <+: t.notifications

/-- R183: outside a boundary the abort input is neither taken nor looked at: not by a slot, the round's last one included,
and not by a step that runs no boundary (INIT's, a slot before the last, the opening of a later round, ENDED). Which steps
run a boundary is log 1, the input's form log 8. -/
def Obligations.AbortIsReadOnlyAtBoundaries : Prop :=
  ∀ (s t : State) (draws : List Bool),
    (slot s = .next t →
      t.abortDraws = s.abortDraws ∧ slot { s with abortDraws := draws } = .next { t with abortDraws := draws }) ∧
    ((s.schedState = .init → s.phase = .loading) →
      (s.schedState = .running → 0 < s.warriors.length ∧ s.cursor + 1 ≠ s.warriors.length) → step s = .next t →
      t.abortDraws = s.abortDraws ∧ step { s with abortDraws := draws } = .next { t with abortDraws := draws })

/-- R186, R27: the groups play no part: in a battle under way, the step of the machine with every warrior put in one group
is the step, with every warrior put in that group. -/
def Obligations.GroupsPlayNoPart : Prop :=
  ∀ (s t : State) (g : String), s.phase = .running → step s = .next t → step (s.regroup g) = .next (t.regroup g)

/-- R30, R58: whether a listener is registered, and what it has received, changes nothing else. -/
def Obligations.ListenerChangesNothing : Prop :=
  ∀ s t s' : State, SameButListener s t → step s = .next s' → ∃ t', step t = .next t' ∧ SameButListener s' t'

/-- R187: `runRound` between two rounds is the machine's own steps: with N warriors, N + 1 of them, and it answers whether
the battle goes on. -/
def Obligations.RunRoundIsTheMachinesSteps : Prop :=
  ∀ s : State, BattleInv s → s.phase = .running → s.cursor = s.warriors.length →
    ∃ t more, runRound s = .next (t, more) ∧
      Host.Core.run Sys2Proof.core (s.warriors.length + 1) s = .next t ∧ (more = true ↔ t.schedState ≠ .ended)

/-- R188, R189: `runToCompletion` ends the battle with at most `RoundCap` rounds and answers its reason. -/
def Obligations.RunToCompletionEnds : Prop :=
  ∀ s : State, BattleInv s → s.phase = .running → s.cursor = s.warriors.length →
    ∃ t r, runToCompletion s = .next (t, some r) ∧ t.schedState = .ended ∧ t.reason = some r ∧
      t.roundsCompleted ≤ s.config.roundCap

/-- R189: whatever the warriors do, a battle under way ends, within N + 1 steps (log 1) a round and `RoundCap` rounds. -/
def Obligations.EveryBattleEnds : Prop :=
  ∀ s : State, BattleInv s → s.phase = .running →
    ∃ n t, n ≤ (s.config.roundCap + 1) * (s.warriors.length + 1) ∧ Host.Core.run Sys2Proof.core n s = .next t ∧
      t.schedState = .ended ∧ t.roundsCompleted ≤ s.config.roundCap

/-! ## Reset and INIT (70_reset_and_hazards.md) -/

/-- R33's reset values, for the fields to which it gives one; and no byte is listed. The configuration's own values are the
model's choice (log 3) and no part of this. -/
def Obligations.ResetIsTheSpecsReset : Prop :=
  State.reset.phase = .loading ∧ State.reset.schedState = .init ∧ State.reset.roundsCompleted = 0 ∧
  State.reset.cursor = State.reset.warriors.length ∧ State.reset.reason = none ∧ State.reset.mem = []

/-- R212, R213: each setup error is answered for a condition that holds, and changes nothing but the port's signals. -/
def Obligations.SetupErrorsChangeNothing : Prop :=
  ∀ (b : Battle) (s : State),
    (b.warriors = [] ∨ b.config.arenaSize = 0 ∨ b.config.encodingMode = .legacy →
      ∃ e, configure b s = .next { s with pending := none, answer := some (.setupError e) } ∧
        (match e with
          | .noWarriors => b.warriors = []
          | .zeroArenaSize => b.config.arenaSize = 0
          | .unsupportedEncodingMode => b.config.encodingMode = .legacy)) ∧
    (b.warriors ≠ [] → b.config.arenaSize ≠ 0 → b.config.encodingMode = .reduced →
      2 ^ 32 % b.config.arenaSize ≠ 0 → configure b s = .refused .arenaSizeNotAdmitted)

/-- In INIT with the phase Loading the machine's step answers the presented `configure` (R40), and with none presented it
waits (log 13). When one is taken is log 17. -/
def Obligations.StepAnswersThePresentedConfigure : Prop :=
  ∀ s : State, s.schedState = .init → s.phase = .loading →
    (∀ b, s.pending = some b → step s = configure b s) ∧ (s.pending = none → step s = .next s)

/-- R41: the values after INIT, which the machine's step reaches when the battle is presented; nothing stays
presented, the listener and the abort draws are as before. -/
def Obligations.InitGivesTheResetValues : Prop :=
  ∀ (b : Battle) (s : State), s.schedState = .init → b.warriors ≠ [] → sizeAdmitted b.config = true →
    b.config.encodingMode = .reduced →
    ∃ t, configure b s = .next t ∧ (s.phase = .loading → s.pending = some b → step s = .next t) ∧
      t.answer = some .ready ∧ t.pending = none ∧ t.listener = s.listener ∧ t.abortDraws = s.abortDraws ∧
      t.config = b.config ∧ t.phase = .running ∧
      t.schedState = .init ∧ t.roundsCompleted = 0 ∧ t.cursor = b.warriors.length ∧ t.reason = none ∧
      t.warriors.length = b.warriors.length ∧
      (∀ (k : Nat) (wi : WarriorInput), b.warriors[k]? = some wi → ∃ u : Warrior,
        t.warriors[k]? = some u ∧ u.alive = true ∧ u.cpu.read 0#5 = 0#32 ∧
        (∀ (r : RegIdx) (h : r.toNat - 1 < 31), r ≠ 0#5 → u.cpu.read r = wi.initRegs[r.toNat - 1]) ∧
        u.cpu.pc = wi.entryPc.getD wi.loadOffset ∧ u.label = wi.label ∧ u.group = wi.group ∧ u.code = wi.code ∧
        u.loadOffset = wi.loadOffset ∧ u.entryPc = wi.entryPc.getD wi.loadOffset) ∧
      (∀ k i a v, Loads b k i a v → (∀ k' i' v', Loads b k' i' a v' → k' < k ∨ k' = k ∧ i' ≤ i) →
        Memory.read t.mem a = v) ∧
      ∀ a, a < b.config.arenaSize → (∀ k i v, ¬ Loads b k i a v) → Memory.read t.mem a = initArenaByte b.config a

/-- R211, R215 to R217: INIT notifies each code byte once, in warrior and byte order, with phase Loading, if a listener is
registered; and emits the births in index order and then `Start`. -/
def Obligations.InitNotifiesAndEmits : Prop :=
  ∀ (b : Battle) (s : State), b.warriors ≠ [] → sizeAdmitted b.config = true → b.config.encodingMode = .reduced →
    ∃ t, configure b s = .next t ∧
      t.notifications =
        (if s.listener then
          s.notifications ++ b.warriors.flatMap (fun w => w.code.zipIdx.map fun c =>
            ⟨translateAddr b.config b.config.rvSegment (w.loadOffset.toNat + c.2), c.1, .loading⟩)
        else s.notifications) ∧
      t.events = s.events ++ (b.warriors.zipIdx.map fun c => Event.birth c.2 c.1.label) ++ [.start]

/-! ## The invariant -/

/-- The invariant holds at reset. -/
def Obligations.InvariantAtReset : Prop := BattleInv State.reset

/-- Every step keeps the invariant. -/
def Obligations.EveryStepKeepsTheInvariant : Prop := ∀ s t : State, BattleInv s → step s = .next t → BattleInv t

/-- From a state that meets the invariant the machine never stops, unless a presented arena size is one the spec refuses
(R9): a warrior's fault is "never a process-level abort" (R173). -/
def Obligations.TheMachineNeverStops : Prop := ∀ s : State, BattleInv s → PendingAdmitted s → SafeStep s
end

