-- ==== Sys2Proof/Laws/Encode.lean ====
section
/-! SUPPORT. The fields the decoder reads back from each format's encoding (R81 to R88), and the encoding's fixed bits
under the masks of the opcode table. -/

namespace Sys2Proof

theorem evenBranch_bit {offset : BitVec 13} (h : evenBranch offset = true) : offset[0] = false := by
  have := congrArg (fun v : BitVec 1 => v.getLsbD 0) (eq_of_beq h)
  simpa using this

theorem evenJump_bit {offset : BitVec 21} (h : evenJump offset = true) : offset[0] = false := by
  have := congrArg (fun v : BitVec 1 => v.getLsbD 0) (eq_of_beq h)
  simpa using this

/-! ## R format -/

@[simp] theorem opcodeOf_encodeR (funct7 : BitVec 7) (funct3 : BitVec 3) (opcode : BitVec 7) (rd rs1 rs2 : RegIdx) :
    opcodeOf (encodeR funct7 funct3 opcode rd rs1 rs2) = opcode := by
  apply BitVec.eq_of_getLsbD_eq
  intro i hi
  simp only [opcodeOf, encodeR, BitVec.getLsbD_extractLsb', BitVec.getLsbD_append]
  interval_cases i <;> simp

@[simp] theorem rdOf_encodeR (funct7 : BitVec 7) (funct3 : BitVec 3) (opcode : BitVec 7) (rd rs1 rs2 : RegIdx) :
    rdOf (encodeR funct7 funct3 opcode rd rs1 rs2) = rd := by
  apply BitVec.eq_of_getLsbD_eq
  intro i hi
  simp only [rdOf, encodeR, BitVec.getLsbD_extractLsb', BitVec.getLsbD_append]
  interval_cases i <;> simp

@[simp] theorem funct3Of_encodeR (funct7 : BitVec 7) (funct3 : BitVec 3) (opcode : BitVec 7) (rd rs1 rs2 : RegIdx) :
    funct3Of (encodeR funct7 funct3 opcode rd rs1 rs2) = funct3 := by
  apply BitVec.eq_of_getLsbD_eq
  intro i hi
  simp only [funct3Of, encodeR, BitVec.getLsbD_extractLsb', BitVec.getLsbD_append]
  interval_cases i <;> simp

@[simp] theorem rs1Of_encodeR (funct7 : BitVec 7) (funct3 : BitVec 3) (opcode : BitVec 7) (rd rs1 rs2 : RegIdx) :
    rs1Of (encodeR funct7 funct3 opcode rd rs1 rs2) = rs1 := by
  apply BitVec.eq_of_getLsbD_eq
  intro i hi
  simp only [rs1Of, encodeR, BitVec.getLsbD_extractLsb', BitVec.getLsbD_append]
  interval_cases i <;> simp

@[simp] theorem rs2Of_encodeR (funct7 : BitVec 7) (funct3 : BitVec 3) (opcode : BitVec 7) (rd rs1 rs2 : RegIdx) :
    rs2Of (encodeR funct7 funct3 opcode rd rs1 rs2) = rs2 := by
  apply BitVec.eq_of_getLsbD_eq
  intro i hi
  simp only [rs2Of, encodeR, BitVec.getLsbD_extractLsb', BitVec.getLsbD_append]
  interval_cases i <;> simp

@[simp] theorem shamtOf_encodeR (funct7 : BitVec 7) (funct3 : BitVec 3) (opcode : BitVec 7) (rd rs1 rs2 : RegIdx) :
    shamtOf (encodeR funct7 funct3 opcode rd rs1 rs2) = rs2 := by
  apply BitVec.eq_of_getLsbD_eq
  intro i hi
  simp only [shamtOf, encodeR, BitVec.getLsbD_extractLsb', BitVec.getLsbD_append]
  interval_cases i <;> simp

@[simp] theorem funct7Of_encodeR (funct7 : BitVec 7) (funct3 : BitVec 3) (opcode : BitVec 7) (rd rs1 rs2 : RegIdx) :
    funct7Of (encodeR funct7 funct3 opcode rd rs1 rs2) = funct7 := by
  apply BitVec.eq_of_getLsbD_eq
  intro i hi
  simp only [funct7Of, encodeR, BitVec.getLsbD_extractLsb', BitVec.getLsbD_append]
  interval_cases i <;> simp

/-! ## I format -/

@[simp] theorem opcodeOf_encodeI (funct3 : BitVec 3) (opcode : BitVec 7) (rd rs1 : RegIdx) (imm : BitVec 12) :
    opcodeOf (encodeI funct3 opcode rd rs1 imm) = opcode := by
  apply BitVec.eq_of_getLsbD_eq
  intro i hi
  simp only [opcodeOf, encodeI, BitVec.getLsbD_extractLsb', BitVec.getLsbD_append]
  interval_cases i <;> simp

@[simp] theorem rdOf_encodeI (funct3 : BitVec 3) (opcode : BitVec 7) (rd rs1 : RegIdx) (imm : BitVec 12) :
    rdOf (encodeI funct3 opcode rd rs1 imm) = rd := by
  apply BitVec.eq_of_getLsbD_eq
  intro i hi
  simp only [rdOf, encodeI, BitVec.getLsbD_extractLsb', BitVec.getLsbD_append]
  interval_cases i <;> simp

@[simp] theorem funct3Of_encodeI (funct3 : BitVec 3) (opcode : BitVec 7) (rd rs1 : RegIdx) (imm : BitVec 12) :
    funct3Of (encodeI funct3 opcode rd rs1 imm) = funct3 := by
  apply BitVec.eq_of_getLsbD_eq
  intro i hi
  simp only [funct3Of, encodeI, BitVec.getLsbD_extractLsb', BitVec.getLsbD_append]
  interval_cases i <;> simp

@[simp] theorem rs1Of_encodeI (funct3 : BitVec 3) (opcode : BitVec 7) (rd rs1 : RegIdx) (imm : BitVec 12) :
    rs1Of (encodeI funct3 opcode rd rs1 imm) = rs1 := by
  apply BitVec.eq_of_getLsbD_eq
  intro i hi
  simp only [rs1Of, encodeI, BitVec.getLsbD_extractLsb', BitVec.getLsbD_append]
  interval_cases i <;> simp

@[simp] theorem immIOf_encodeI (funct3 : BitVec 3) (opcode : BitVec 7) (rd rs1 : RegIdx) (imm : BitVec 12) :
    immIOf (encodeI funct3 opcode rd rs1 imm) = imm := by
  apply BitVec.eq_of_getLsbD_eq
  intro i hi
  simp only [immIOf, encodeI, BitVec.getLsbD_extractLsb', BitVec.getLsbD_append]
  interval_cases i <;> simp

/-! ## S format -/

@[simp] theorem opcodeOf_encodeS (funct3 : BitVec 3) (opcode : BitVec 7) (rs1 rs2 : RegIdx) (imm : BitVec 12) :
    opcodeOf (encodeS funct3 opcode rs1 rs2 imm) = opcode := by
  apply BitVec.eq_of_getLsbD_eq
  intro i hi
  simp only [opcodeOf, encodeS, BitVec.getLsbD_extractLsb', BitVec.getLsbD_append]
  interval_cases i <;> simp

@[simp] theorem funct3Of_encodeS (funct3 : BitVec 3) (opcode : BitVec 7) (rs1 rs2 : RegIdx) (imm : BitVec 12) :
    funct3Of (encodeS funct3 opcode rs1 rs2 imm) = funct3 := by
  apply BitVec.eq_of_getLsbD_eq
  intro i hi
  simp only [funct3Of, encodeS, BitVec.getLsbD_extractLsb', BitVec.getLsbD_append]
  interval_cases i <;> simp

@[simp] theorem rs1Of_encodeS (funct3 : BitVec 3) (opcode : BitVec 7) (rs1 rs2 : RegIdx) (imm : BitVec 12) :
    rs1Of (encodeS funct3 opcode rs1 rs2 imm) = rs1 := by
  apply BitVec.eq_of_getLsbD_eq
  intro i hi
  simp only [rs1Of, encodeS, BitVec.getLsbD_extractLsb', BitVec.getLsbD_append]
  interval_cases i <;> simp

@[simp] theorem rs2Of_encodeS (funct3 : BitVec 3) (opcode : BitVec 7) (rs1 rs2 : RegIdx) (imm : BitVec 12) :
    rs2Of (encodeS funct3 opcode rs1 rs2 imm) = rs2 := by
  apply BitVec.eq_of_getLsbD_eq
  intro i hi
  simp only [rs2Of, encodeS, BitVec.getLsbD_extractLsb', BitVec.getLsbD_append]
  interval_cases i <;> simp

@[simp] theorem immSOf_encodeS (funct3 : BitVec 3) (opcode : BitVec 7) (rs1 rs2 : RegIdx) (imm : BitVec 12) :
    immSOf (encodeS funct3 opcode rs1 rs2 imm) = imm := by
  apply BitVec.eq_of_getLsbD_eq
  intro i hi
  simp only [immSOf, encodeS, BitVec.getLsbD_extractLsb', BitVec.getLsbD_append]
  interval_cases i <;> simp

/-! ## B format -/

@[simp] theorem opcodeOf_encodeB (funct3 : BitVec 3) (opcode : BitVec 7) (rs1 rs2 : RegIdx) (imm : BitVec 13) :
    opcodeOf (encodeB funct3 opcode rs1 rs2 imm) = opcode := by
  apply BitVec.eq_of_getLsbD_eq
  intro i hi
  simp only [opcodeOf, encodeB, BitVec.getLsbD_extractLsb', BitVec.getLsbD_append]
  interval_cases i <;> simp

@[simp] theorem funct3Of_encodeB (funct3 : BitVec 3) (opcode : BitVec 7) (rs1 rs2 : RegIdx) (imm : BitVec 13) :
    funct3Of (encodeB funct3 opcode rs1 rs2 imm) = funct3 := by
  apply BitVec.eq_of_getLsbD_eq
  intro i hi
  simp only [funct3Of, encodeB, BitVec.getLsbD_extractLsb', BitVec.getLsbD_append]
  interval_cases i <;> simp

@[simp] theorem rs1Of_encodeB (funct3 : BitVec 3) (opcode : BitVec 7) (rs1 rs2 : RegIdx) (imm : BitVec 13) :
    rs1Of (encodeB funct3 opcode rs1 rs2 imm) = rs1 := by
  apply BitVec.eq_of_getLsbD_eq
  intro i hi
  simp only [rs1Of, encodeB, BitVec.getLsbD_extractLsb', BitVec.getLsbD_append]
  interval_cases i <;> simp

@[simp] theorem rs2Of_encodeB (funct3 : BitVec 3) (opcode : BitVec 7) (rs1 rs2 : RegIdx) (imm : BitVec 13) :
    rs2Of (encodeB funct3 opcode rs1 rs2 imm) = rs2 := by
  apply BitVec.eq_of_getLsbD_eq
  intro i hi
  simp only [rs2Of, encodeB, BitVec.getLsbD_extractLsb', BitVec.getLsbD_append]
  interval_cases i <;> simp

@[simp] theorem immBOf_encodeB (funct3 : BitVec 3) (opcode : BitVec 7) (rs1 rs2 : RegIdx) (imm : BitVec 13) (h : evenBranch imm = true) :
    immBOf (encodeB funct3 opcode rs1 rs2 imm) = imm := by
  apply BitVec.eq_of_getLsbD_eq
  intro i hi
  simp only [immBOf, encodeB, BitVec.getLsbD_extractLsb', BitVec.getLsbD_append]
  interval_cases i <;> simp [evenBranch_bit h]

/-! ## U format -/

@[simp] theorem opcodeOf_encodeU (opcode : BitVec 7) (rd : RegIdx) (imm : BitVec 20) :
    opcodeOf (encodeU opcode rd imm) = opcode := by
  apply BitVec.eq_of_getLsbD_eq
  intro i hi
  simp only [opcodeOf, encodeU, BitVec.getLsbD_extractLsb', BitVec.getLsbD_append]
  interval_cases i <;> simp

@[simp] theorem rdOf_encodeU (opcode : BitVec 7) (rd : RegIdx) (imm : BitVec 20) :
    rdOf (encodeU opcode rd imm) = rd := by
  apply BitVec.eq_of_getLsbD_eq
  intro i hi
  simp only [rdOf, encodeU, BitVec.getLsbD_extractLsb', BitVec.getLsbD_append]
  interval_cases i <;> simp

@[simp] theorem immUOf_encodeU (opcode : BitVec 7) (rd : RegIdx) (imm : BitVec 20) :
    immUOf (encodeU opcode rd imm) = imm := by
  apply BitVec.eq_of_getLsbD_eq
  intro i hi
  simp only [immUOf, encodeU, BitVec.getLsbD_extractLsb', BitVec.getLsbD_append]
  interval_cases i <;> simp

/-! ## J format -/

@[simp] theorem opcodeOf_encodeJ (opcode : BitVec 7) (rd : RegIdx) (imm : BitVec 21) :
    opcodeOf (encodeJ opcode rd imm) = opcode := by
  apply BitVec.eq_of_getLsbD_eq
  intro i hi
  simp only [opcodeOf, encodeJ, BitVec.getLsbD_extractLsb', BitVec.getLsbD_append]
  interval_cases i <;> simp

@[simp] theorem rdOf_encodeJ (opcode : BitVec 7) (rd : RegIdx) (imm : BitVec 21) :
    rdOf (encodeJ opcode rd imm) = rd := by
  apply BitVec.eq_of_getLsbD_eq
  intro i hi
  simp only [rdOf, encodeJ, BitVec.getLsbD_extractLsb', BitVec.getLsbD_append]
  interval_cases i <;> simp

@[simp] theorem immJOf_encodeJ (opcode : BitVec 7) (rd : RegIdx) (imm : BitVec 21) (h : evenJump imm = true) :
    immJOf (encodeJ opcode rd imm) = imm := by
  apply BitVec.eq_of_getLsbD_eq
  intro i hi
  simp only [immJOf, encodeJ, BitVec.getLsbD_extractLsb', BitVec.getLsbD_append]
  interval_cases i <;> simp [evenJump_bit h]

/-! ## The fixed bits -/

theorem encodeR_fixed_all (funct7 : BitVec 7) (funct3 : BitVec 3) (opcode : BitVec 7) (rd rs1 rs2 : RegIdx) :
    encodeR funct7 funct3 opcode rd rs1 rs2 &&& 0xFE00707F#32 = encodeR funct7 funct3 opcode 0#5 0#5 0#5 := by
  apply BitVec.eq_of_getLsbD_eq
  intro i hi
  simp only [encodeR, BitVec.getLsbD_and, BitVec.getLsbD_append]
  interval_cases i <;> simp

theorem encodeR_fixed_f3 (funct7 : BitVec 7) (funct3 : BitVec 3) (opcode : BitVec 7) (rd rs1 rs2 : RegIdx) :
    encodeR funct7 funct3 opcode rd rs1 rs2 &&& 0x0000707F#32 = encodeR 0#7 funct3 opcode 0#5 0#5 0#5 := by
  apply BitVec.eq_of_getLsbD_eq
  intro i hi
  simp only [encodeR, BitVec.getLsbD_and, BitVec.getLsbD_append]
  interval_cases i <;> simp

theorem encodeI_fixed_f3 (funct3 : BitVec 3) (opcode : BitVec 7) (rd rs1 : RegIdx) (imm : BitVec 12) :
    encodeI funct3 opcode rd rs1 imm &&& 0x0000707F#32 = encodeI funct3 opcode 0#5 0#5 0#12 := by
  apply BitVec.eq_of_getLsbD_eq
  intro i hi
  simp only [encodeI, BitVec.getLsbD_and, BitVec.getLsbD_append]
  interval_cases i <;> simp

theorem encodeS_fixed_f3 (funct3 : BitVec 3) (opcode : BitVec 7) (rs1 rs2 : RegIdx) (imm : BitVec 12) :
    encodeS funct3 opcode rs1 rs2 imm &&& 0x0000707F#32 = encodeS funct3 opcode 0#5 0#5 0#12 := by
  apply BitVec.eq_of_getLsbD_eq
  intro i hi
  simp only [encodeS, BitVec.getLsbD_and, BitVec.getLsbD_append, BitVec.getLsbD_extractLsb']
  interval_cases i <;> simp

theorem encodeB_fixed_f3 (funct3 : BitVec 3) (opcode : BitVec 7) (rs1 rs2 : RegIdx) (imm : BitVec 13) :
    encodeB funct3 opcode rs1 rs2 imm &&& 0x0000707F#32 = encodeB funct3 opcode 0#5 0#5 0#13 := by
  apply BitVec.eq_of_getLsbD_eq
  intro i hi
  simp only [encodeB, BitVec.getLsbD_and, BitVec.getLsbD_append, BitVec.getLsbD_extractLsb']
  interval_cases i <;> simp

theorem encodeU_fixed_op (opcode : BitVec 7) (rd : RegIdx) (imm : BitVec 20) :
    encodeU opcode rd imm &&& 0x0000007F#32 = encodeU opcode 0#5 0#20 := by
  apply BitVec.eq_of_getLsbD_eq
  intro i hi
  simp only [encodeU, BitVec.getLsbD_and, BitVec.getLsbD_append]
  interval_cases i <;> simp

theorem encodeJ_fixed_op (opcode : BitVec 7) (rd : RegIdx) (imm : BitVec 21) :
    encodeJ opcode rd imm &&& 0x0000007F#32 = encodeJ opcode 0#5 0#21 := by
  apply BitVec.eq_of_getLsbD_eq
  intro i hi
  simp only [encodeJ, BitVec.getLsbD_and, BitVec.getLsbD_append, BitVec.getLsbD_extractLsb']
  interval_cases i <;> simp

/-! ## Words put together from their fields (R82) -/

theorem encodeS_fields (high : BitVec 7) (low : BitVec 5) (funct3 : BitVec 3) (rs1 rs2 : RegIdx) (opcode : BitVec 7) :
    (high ++ rs2 ++ rs1 ++ funct3 ++ low ++ opcode : Word) = encodeS funct3 opcode rs1 rs2 (high ++ low) := by
  apply BitVec.eq_of_getLsbD_eq
  intro i hi
  simp only [encodeS, BitVec.getLsbD_extractLsb', BitVec.getLsbD_append]
  interval_cases i <;> simp

theorem encodeB_fields (b12 b11 : BitVec 1) (b10 : BitVec 6) (b4 : BitVec 4) (funct3 : BitVec 3) (rs1 rs2 : RegIdx)
    (opcode : BitVec 7) : (b12 ++ b10 ++ rs2 ++ rs1 ++ funct3 ++ b4 ++ b11 ++ opcode : Word) =
      encodeB funct3 opcode rs1 rs2 (b12 ++ b11 ++ b10 ++ b4 ++ 0#1) := by
  apply BitVec.eq_of_getLsbD_eq
  intro i hi
  simp only [encodeB, BitVec.getLsbD_extractLsb', BitVec.getLsbD_append]
  interval_cases i <;> simp

theorem encodeJ_fields (b20 b11 : BitVec 1) (b19 : BitVec 8) (b10 : BitVec 10) (rd : RegIdx) (opcode : BitVec 7) :
    (b20 ++ b10 ++ b11 ++ b19 ++ rd ++ opcode : Word) = encodeJ opcode rd (b20 ++ b19 ++ b11 ++ b10 ++ 0#1) := by
  apply BitVec.eq_of_getLsbD_eq
  intro i hi
  simp only [encodeJ, BitVec.getLsbD_extractLsb', BitVec.getLsbD_append]
  interval_cases i <;> simp

/-- An offset put together with bit 0 zero is even (R85). -/
theorem evenBranch_fields (b12 b11 : BitVec 1) (b10 : BitVec 6) (b4 : BitVec 4) :
    evenBranch (b12 ++ b11 ++ b10 ++ b4 ++ 0#1) = true := by
  have h : (b12 ++ b11 ++ b10 ++ b4 ++ 0#1 : BitVec 13).extractLsb' 0 1 = 0#1 := by
    apply BitVec.eq_of_getLsbD_eq
    intro i hi
    interval_cases i
    simp only [BitVec.getLsbD_extractLsb', BitVec.getLsbD_append]
    simp
  simp [evenBranch, h]

/-- The same of a jump's offset (R87). -/
theorem evenJump_fields (b20 b11 : BitVec 1) (b19 : BitVec 8) (b10 : BitVec 10) :
    evenJump (b20 ++ b19 ++ b11 ++ b10 ++ 0#1) = true := by
  have h : (b20 ++ b19 ++ b11 ++ b10 ++ 0#1 : BitVec 21).extractLsb' 0 1 = 0#1 := by
    apply BitVec.eq_of_getLsbD_eq
    intro i hi
    interval_cases i
    simp only [BitVec.getLsbD_extractLsb', BitVec.getLsbD_append]
    simp
  simp [evenJump, h]

/-! ## Bytes and words (R54) -/

/-- Two bytes, little-endian, as a zero-extended halfword. -/
theorem leWord_two (b0 b1 : Byte) : leWord [b0, b1] = (b1 ++ b0 : BitVec 16).setWidth 32 := by
  apply BitVec.eq_of_getLsbD_eq
  intro i hi
  simp only [leWord, BitVec.getLsbD_append, BitVec.getLsbD_or, BitVec.getLsbD_setWidth, BitVec.getLsbD_shiftLeft]
  interval_cases i <;> simp

/-- Four bytes, little-endian. -/
theorem leWord_four (b0 b1 b2 b3 : Byte) : leWord [b0, b1, b2, b3] = (b3 ++ b2 ++ b1 ++ b0 : Word) := by
  apply BitVec.eq_of_getLsbD_eq
  intro i hi
  simp only [leWord, BitVec.getLsbD_append, BitVec.getLsbD_or, BitVec.getLsbD_setWidth, BitVec.getLsbD_shiftLeft]
  interval_cases i <;> simp

/-- A word is its four bytes. -/
theorem byteOf_four (v : Word) : (byteOf v 3 ++ byteOf v 2 ++ byteOf v 1 ++ byteOf v 0 : Word) = v := by
  apply BitVec.eq_of_getLsbD_eq
  intro i hi
  simp only [byteOf, BitVec.getLsbD_append, BitVec.getLsbD_extractLsb']
  interval_cases i <;> simp

end Sys2Proof
end

