-- ==== Sys2Proof/Laws/Registers.lean ====
section
/-! SUPPORT. The laws of the register file and of the open slot. -/

namespace Sys2Proof.Machine

@[simp] theorem Cpu.read_zero (c : Cpu) : c.read 0#5 = 0#32 := rfl

@[simp] theorem Cpu.write_zero (c : Cpu) (v : Word) : c.write 0#5 v = c := rfl

@[simp] theorem Cpu.write_pc (c : Cpu) (r : RegIdx) (v : Word) : (c.write r v).pc = c.pc := by
  unfold Cpu.write
  split <;> rfl

@[simp] theorem Cpu.setPc_pc (c : Cpu) (p : Word) : (c.setPc p).pc = p := rfl

@[simp] theorem Cpu.setPc_read (c : Cpu) (p : Word) (r : RegIdx) : (c.setPc p).read r = c.read r := rfl

/-- A register reads as last written, x0 as zero, and a write leaves every other register alone. -/
theorem Cpu.read_write (c : Cpu) (rd r : RegIdx) (v : Word) :
    (c.write rd v).read r = if r = 0#5 then 0#32 else if r = rd then v else c.read r := by
  by_cases hr : r = 0#5
  · subst hr; simp
  · rw [if_neg hr]
    by_cases hd : rd = 0#5
    · subst hd; simp [hr]
    · have h1 : r.toNat ≠ 0 := fun h => hr (BitVec.eq_of_toNat_eq (by simpa using h))
      have h2 : rd.toNat ≠ 0 := fun h => hd (BitVec.eq_of_toNat_eq (by simpa using h))
      simp only [Cpu.read, Cpu.write, if_neg hr, if_neg hd, Vector.getElem_set]
      by_cases e : r = rd
      · subst e; simp
      · have h3 : rd.toNat - 1 ≠ r.toNat - 1 := fun h => e (BitVec.eq_of_toNat_eq (by omega))
        simp [h3, e]

@[simp] theorem Cpu.read_write_same {c : Cpu} {r : RegIdx} (h : r ≠ 0#5) (v : Word) : (c.write r v).read r = v := by
  simp [Cpu.read_write, h]

theorem Cpu.read_write_other {c : Cpu} {r q : RegIdx} (h : q ≠ r) (v : Word) : (c.write r v).read q = c.read q := by
  rw [Cpu.read_write]
  by_cases hq : q = 0#5
  · subst hq; simp
  · simp [hq, h]

/-- The open slot's warrior is alive and the one the cursor names. -/
theorem State.slot?_eq_some {s : State} {w : Warrior} :
    s.slot? = some w ↔ s.warriors[s.cursor]? = some w ∧ w.alive = true := by
  unfold State.slot?
  cases h : s.warriors[s.cursor]? with
  | none => simp
  | some u => by_cases hu : u.alive <;> simp [hu] <;> rintro rfl <;> simp_all

/-- With a slot open, `inSlot` runs its body. -/
theorem inSlot_open {s : State} {w : Warrior} (h : s.slot? = some w) (k : Warrior → Result) : inSlot s k = k w := by
  simp [inSlot, h]

/-- The open slot is a place of the warrior list. -/
theorem State.slot?_lt {s : State} {w : Warrior} (h : s.slot? = some w) : s.cursor < s.warriors.length :=
  (List.getElem?_eq_some_iff.mp (State.slot?_eq_some.mp h).1).1

/-- After the CPU state of the open slot's warrior is replaced, the slot is still open and holds the new one. -/
theorem State.slot?_setCpu {s : State} {w : Warrior} (h : s.slot? = some w) (c : Cpu) :
    (s.setCpu w c).slot? = some { w with cpu := c } := by
  rw [State.slot?_eq_some]
  refine ⟨?_, (State.slot?_eq_some.mp h).2⟩
  show (s.warriors.set s.cursor _)[s.cursor]? = _
  rw [List.getElem?_set_self (State.slot?_lt h)]

end Sys2Proof.Machine
end

