-- ==== Sys2Proof/Laws/State.lean ====
section
/-! SUPPORT. The small lemmas of the state updates: one per field and update, true by unfolding, so that no later proof
unfolds a record update. -/

namespace Sys2Proof.Machine

/-! ## `State.setSlot` -/

@[simp] theorem State.setSlot_config (s : State) (w : Warrior) :
    (s.setSlot w).config = s.config := rfl
@[simp] theorem State.setSlot_warriors (s : State) (w : Warrior) :
    (s.setSlot w).warriors = s.warriors.set s.cursor w := rfl
@[simp] theorem State.setSlot_mem (s : State) (w : Warrior) :
    (s.setSlot w).mem = s.mem := rfl
@[simp] theorem State.setSlot_phase (s : State) (w : Warrior) :
    (s.setSlot w).phase = s.phase := rfl
@[simp] theorem State.setSlot_listener (s : State) (w : Warrior) :
    (s.setSlot w).listener = s.listener := rfl
@[simp] theorem State.setSlot_notifications (s : State) (w : Warrior) :
    (s.setSlot w).notifications = s.notifications := rfl
@[simp] theorem State.setSlot_schedState (s : State) (w : Warrior) :
    (s.setSlot w).schedState = s.schedState := rfl
@[simp] theorem State.setSlot_roundsCompleted (s : State) (w : Warrior) :
    (s.setSlot w).roundsCompleted = s.roundsCompleted := rfl
@[simp] theorem State.setSlot_cursor (s : State) (w : Warrior) :
    (s.setSlot w).cursor = s.cursor := rfl
@[simp] theorem State.setSlot_reason (s : State) (w : Warrior) :
    (s.setSlot w).reason = s.reason := rfl
@[simp] theorem State.setSlot_events (s : State) (w : Warrior) :
    (s.setSlot w).events = s.events := rfl
@[simp] theorem State.setSlot_abortDraws (s : State) (w : Warrior) :
    (s.setSlot w).abortDraws = s.abortDraws := rfl
@[simp] theorem State.setSlot_pending (s : State) (w : Warrior) :
    (s.setSlot w).pending = s.pending := rfl
@[simp] theorem State.setSlot_answer (s : State) (w : Warrior) :
    (s.setSlot w).answer = s.answer := rfl

/-! ## `State.setCpu` -/

@[simp] theorem State.setCpu_config (s : State) (w : Warrior) (c : Cpu) :
    (s.setCpu w c).config = s.config := rfl
@[simp] theorem State.setCpu_warriors (s : State) (w : Warrior) (c : Cpu) :
    (s.setCpu w c).warriors = s.warriors.set s.cursor { w with cpu := c } := rfl
@[simp] theorem State.setCpu_mem (s : State) (w : Warrior) (c : Cpu) :
    (s.setCpu w c).mem = s.mem := rfl
@[simp] theorem State.setCpu_phase (s : State) (w : Warrior) (c : Cpu) :
    (s.setCpu w c).phase = s.phase := rfl
@[simp] theorem State.setCpu_listener (s : State) (w : Warrior) (c : Cpu) :
    (s.setCpu w c).listener = s.listener := rfl
@[simp] theorem State.setCpu_notifications (s : State) (w : Warrior) (c : Cpu) :
    (s.setCpu w c).notifications = s.notifications := rfl
@[simp] theorem State.setCpu_schedState (s : State) (w : Warrior) (c : Cpu) :
    (s.setCpu w c).schedState = s.schedState := rfl
@[simp] theorem State.setCpu_roundsCompleted (s : State) (w : Warrior) (c : Cpu) :
    (s.setCpu w c).roundsCompleted = s.roundsCompleted := rfl
@[simp] theorem State.setCpu_cursor (s : State) (w : Warrior) (c : Cpu) :
    (s.setCpu w c).cursor = s.cursor := rfl
@[simp] theorem State.setCpu_reason (s : State) (w : Warrior) (c : Cpu) :
    (s.setCpu w c).reason = s.reason := rfl
@[simp] theorem State.setCpu_events (s : State) (w : Warrior) (c : Cpu) :
    (s.setCpu w c).events = s.events := rfl
@[simp] theorem State.setCpu_abortDraws (s : State) (w : Warrior) (c : Cpu) :
    (s.setCpu w c).abortDraws = s.abortDraws := rfl
@[simp] theorem State.setCpu_pending (s : State) (w : Warrior) (c : Cpu) :
    (s.setCpu w c).pending = s.pending := rfl
@[simp] theorem State.setCpu_answer (s : State) (w : Warrior) (c : Cpu) :
    (s.setCpu w c).answer = s.answer := rfl

/-! ## `State.commitByte` -/

@[simp] theorem State.commitByte_config (s : State) (l : Nat) (v : Byte) :
    (s.commitByte l v).config = s.config := rfl
@[simp] theorem State.commitByte_warriors (s : State) (l : Nat) (v : Byte) :
    (s.commitByte l v).warriors = s.warriors := rfl
@[simp] theorem State.commitByte_mem (s : State) (l : Nat) (v : Byte) :
    (s.commitByte l v).mem = Memory.write s.mem l v := rfl
@[simp] theorem State.commitByte_phase (s : State) (l : Nat) (v : Byte) :
    (s.commitByte l v).phase = s.phase := rfl
@[simp] theorem State.commitByte_listener (s : State) (l : Nat) (v : Byte) :
    (s.commitByte l v).listener = s.listener := rfl
@[simp] theorem State.commitByte_notifications (s : State) (l : Nat) (v : Byte) :
    (s.commitByte l v).notifications = if s.listener then s.notifications ++ [⟨l, v, s.phase⟩] else s.notifications := rfl
@[simp] theorem State.commitByte_schedState (s : State) (l : Nat) (v : Byte) :
    (s.commitByte l v).schedState = s.schedState := rfl
@[simp] theorem State.commitByte_roundsCompleted (s : State) (l : Nat) (v : Byte) :
    (s.commitByte l v).roundsCompleted = s.roundsCompleted := rfl
@[simp] theorem State.commitByte_cursor (s : State) (l : Nat) (v : Byte) :
    (s.commitByte l v).cursor = s.cursor := rfl
@[simp] theorem State.commitByte_reason (s : State) (l : Nat) (v : Byte) :
    (s.commitByte l v).reason = s.reason := rfl
@[simp] theorem State.commitByte_events (s : State) (l : Nat) (v : Byte) :
    (s.commitByte l v).events = s.events := rfl
@[simp] theorem State.commitByte_abortDraws (s : State) (l : Nat) (v : Byte) :
    (s.commitByte l v).abortDraws = s.abortDraws := rfl
@[simp] theorem State.commitByte_pending (s : State) (l : Nat) (v : Byte) :
    (s.commitByte l v).pending = s.pending := rfl
@[simp] theorem State.commitByte_answer (s : State) (l : Nat) (v : Byte) :
    (s.commitByte l v).answer = s.answer := rfl

/-! ## `State.emit` -/

@[simp] theorem State.emit_config (s : State) (e : Event) :
    (s.emit e).config = s.config := rfl
@[simp] theorem State.emit_warriors (s : State) (e : Event) :
    (s.emit e).warriors = s.warriors := rfl
@[simp] theorem State.emit_mem (s : State) (e : Event) :
    (s.emit e).mem = s.mem := rfl
@[simp] theorem State.emit_phase (s : State) (e : Event) :
    (s.emit e).phase = s.phase := rfl
@[simp] theorem State.emit_listener (s : State) (e : Event) :
    (s.emit e).listener = s.listener := rfl
@[simp] theorem State.emit_notifications (s : State) (e : Event) :
    (s.emit e).notifications = s.notifications := rfl
@[simp] theorem State.emit_schedState (s : State) (e : Event) :
    (s.emit e).schedState = s.schedState := rfl
@[simp] theorem State.emit_roundsCompleted (s : State) (e : Event) :
    (s.emit e).roundsCompleted = s.roundsCompleted := rfl
@[simp] theorem State.emit_cursor (s : State) (e : Event) :
    (s.emit e).cursor = s.cursor := rfl
@[simp] theorem State.emit_reason (s : State) (e : Event) :
    (s.emit e).reason = s.reason := rfl
@[simp] theorem State.emit_events (s : State) (e : Event) :
    (s.emit e).events = s.events ++ [e] := rfl
@[simp] theorem State.emit_abortDraws (s : State) (e : Event) :
    (s.emit e).abortDraws = s.abortDraws := rfl
@[simp] theorem State.emit_pending (s : State) (e : Event) :
    (s.emit e).pending = s.pending := rfl
@[simp] theorem State.emit_answer (s : State) (e : Event) :
    (s.emit e).answer = s.answer := rfl

/-! ## `State.takeFault` -/

@[simp] theorem State.takeFault_config (s : State) (w : Warrior) (f : WarriorFault) :
    (s.takeFault w f).config = s.config := rfl
@[simp] theorem State.takeFault_warriors (s : State) (w : Warrior) (f : WarriorFault) :
    (s.takeFault w f).warriors = s.warriors.set s.cursor { w with alive := false } := rfl
@[simp] theorem State.takeFault_mem (s : State) (w : Warrior) (f : WarriorFault) :
    (s.takeFault w f).mem = s.mem := rfl
@[simp] theorem State.takeFault_phase (s : State) (w : Warrior) (f : WarriorFault) :
    (s.takeFault w f).phase = s.phase := rfl
@[simp] theorem State.takeFault_listener (s : State) (w : Warrior) (f : WarriorFault) :
    (s.takeFault w f).listener = s.listener := rfl
@[simp] theorem State.takeFault_notifications (s : State) (w : Warrior) (f : WarriorFault) :
    (s.takeFault w f).notifications = s.notifications := rfl
@[simp] theorem State.takeFault_schedState (s : State) (w : Warrior) (f : WarriorFault) :
    (s.takeFault w f).schedState = s.schedState := rfl
@[simp] theorem State.takeFault_roundsCompleted (s : State) (w : Warrior) (f : WarriorFault) :
    (s.takeFault w f).roundsCompleted = s.roundsCompleted := rfl
@[simp] theorem State.takeFault_cursor (s : State) (w : Warrior) (f : WarriorFault) :
    (s.takeFault w f).cursor = s.cursor := rfl
@[simp] theorem State.takeFault_reason (s : State) (w : Warrior) (f : WarriorFault) :
    (s.takeFault w f).reason = s.reason := rfl
@[simp] theorem State.takeFault_events (s : State) (w : Warrior) (f : WarriorFault) :
    (s.takeFault w f).events = s.events ++ [.death s.cursor w.label f] := rfl
@[simp] theorem State.takeFault_abortDraws (s : State) (w : Warrior) (f : WarriorFault) :
    (s.takeFault w f).abortDraws = s.abortDraws := rfl
@[simp] theorem State.takeFault_pending (s : State) (w : Warrior) (f : WarriorFault) :
    (s.takeFault w f).pending = s.pending := rfl
@[simp] theorem State.takeFault_answer (s : State) (w : Warrior) (f : WarriorFault) :
    (s.takeFault w f).answer = s.answer := rfl

/-! ## `State.nextSlot` -/

@[simp] theorem State.nextSlot_config (s : State) :
    (s.nextSlot).config = s.config := rfl
@[simp] theorem State.nextSlot_warriors (s : State) :
    (s.nextSlot).warriors = s.warriors := rfl
@[simp] theorem State.nextSlot_mem (s : State) :
    (s.nextSlot).mem = s.mem := rfl
@[simp] theorem State.nextSlot_phase (s : State) :
    (s.nextSlot).phase = s.phase := rfl
@[simp] theorem State.nextSlot_listener (s : State) :
    (s.nextSlot).listener = s.listener := rfl
@[simp] theorem State.nextSlot_notifications (s : State) :
    (s.nextSlot).notifications = s.notifications := rfl
@[simp] theorem State.nextSlot_schedState (s : State) :
    (s.nextSlot).schedState = s.schedState := rfl
@[simp] theorem State.nextSlot_roundsCompleted (s : State) :
    (s.nextSlot).roundsCompleted = s.roundsCompleted := rfl
@[simp] theorem State.nextSlot_cursor (s : State) :
    (s.nextSlot).cursor = s.cursor + 1 := rfl
@[simp] theorem State.nextSlot_reason (s : State) :
    (s.nextSlot).reason = s.reason := rfl
@[simp] theorem State.nextSlot_events (s : State) :
    (s.nextSlot).events = s.events := rfl
@[simp] theorem State.nextSlot_abortDraws (s : State) :
    (s.nextSlot).abortDraws = s.abortDraws := rfl
@[simp] theorem State.nextSlot_pending (s : State) :
    (s.nextSlot).pending = s.pending := rfl
@[simp] theorem State.nextSlot_answer (s : State) :
    (s.nextSlot).answer = s.answer := rfl

/-! ## `State.beginRound` -/

@[simp] theorem State.beginRound_config (s : State) :
    (s.beginRound).config = s.config := rfl
@[simp] theorem State.beginRound_warriors (s : State) :
    (s.beginRound).warriors = s.warriors := rfl
@[simp] theorem State.beginRound_mem (s : State) :
    (s.beginRound).mem = s.mem := rfl
@[simp] theorem State.beginRound_phase (s : State) :
    (s.beginRound).phase = s.phase := rfl
@[simp] theorem State.beginRound_listener (s : State) :
    (s.beginRound).listener = s.listener := rfl
@[simp] theorem State.beginRound_notifications (s : State) :
    (s.beginRound).notifications = s.notifications := rfl
@[simp] theorem State.beginRound_schedState (s : State) :
    (s.beginRound).schedState = s.schedState := rfl
@[simp] theorem State.beginRound_roundsCompleted (s : State) :
    (s.beginRound).roundsCompleted = s.roundsCompleted := rfl
@[simp] theorem State.beginRound_cursor (s : State) :
    (s.beginRound).cursor = 0 := rfl
@[simp] theorem State.beginRound_reason (s : State) :
    (s.beginRound).reason = s.reason := rfl
@[simp] theorem State.beginRound_events (s : State) :
    (s.beginRound).events = s.events := rfl
@[simp] theorem State.beginRound_abortDraws (s : State) :
    (s.beginRound).abortDraws = s.abortDraws := rfl
@[simp] theorem State.beginRound_pending (s : State) :
    (s.beginRound).pending = s.pending := rfl
@[simp] theorem State.beginRound_answer (s : State) :
    (s.beginRound).answer = s.answer := rfl

/-! ## `State.endRound` -/

@[simp] theorem State.endRound_config (s : State) :
    (s.endRound).config = s.config := rfl
@[simp] theorem State.endRound_warriors (s : State) :
    (s.endRound).warriors = s.warriors := rfl
@[simp] theorem State.endRound_mem (s : State) :
    (s.endRound).mem = s.mem := rfl
@[simp] theorem State.endRound_phase (s : State) :
    (s.endRound).phase = s.phase := rfl
@[simp] theorem State.endRound_listener (s : State) :
    (s.endRound).listener = s.listener := rfl
@[simp] theorem State.endRound_notifications (s : State) :
    (s.endRound).notifications = s.notifications := rfl
@[simp] theorem State.endRound_schedState (s : State) :
    (s.endRound).schedState = s.schedState := rfl
@[simp] theorem State.endRound_roundsCompleted (s : State) :
    (s.endRound).roundsCompleted = s.roundsCompleted + 1 := rfl
@[simp] theorem State.endRound_cursor (s : State) :
    (s.endRound).cursor = s.warriors.length := rfl
@[simp] theorem State.endRound_reason (s : State) :
    (s.endRound).reason = s.reason := rfl
@[simp] theorem State.endRound_events (s : State) :
    (s.endRound).events = s.events ++ [.roundCompleted (s.roundsCompleted + 1)] := rfl
@[simp] theorem State.endRound_abortDraws (s : State) :
    (s.endRound).abortDraws = s.abortDraws := rfl
@[simp] theorem State.endRound_pending (s : State) :
    (s.endRound).pending = s.pending := rfl
@[simp] theorem State.endRound_answer (s : State) :
    (s.endRound).answer = s.answer := rfl

/-! ## `State.endBattle` -/

@[simp] theorem State.endBattle_config (s : State) (r : Reason) :
    (s.endBattle r).config = s.config := rfl
@[simp] theorem State.endBattle_warriors (s : State) (r : Reason) :
    (s.endBattle r).warriors = s.warriors := rfl
@[simp] theorem State.endBattle_mem (s : State) (r : Reason) :
    (s.endBattle r).mem = s.mem := rfl
@[simp] theorem State.endBattle_phase (s : State) (r : Reason) :
    (s.endBattle r).phase = s.phase := rfl
@[simp] theorem State.endBattle_listener (s : State) (r : Reason) :
    (s.endBattle r).listener = s.listener := rfl
@[simp] theorem State.endBattle_notifications (s : State) (r : Reason) :
    (s.endBattle r).notifications = s.notifications := rfl
@[simp] theorem State.endBattle_schedState (s : State) (r : Reason) :
    (s.endBattle r).schedState = .ended := rfl
@[simp] theorem State.endBattle_roundsCompleted (s : State) (r : Reason) :
    (s.endBattle r).roundsCompleted = s.roundsCompleted := rfl
@[simp] theorem State.endBattle_cursor (s : State) (r : Reason) :
    (s.endBattle r).cursor = s.cursor := rfl
@[simp] theorem State.endBattle_reason (s : State) (r : Reason) :
    (s.endBattle r).reason = some r := rfl
@[simp] theorem State.endBattle_events (s : State) (r : Reason) :
    (s.endBattle r).events = s.events ++ [.finished r] := rfl
@[simp] theorem State.endBattle_abortDraws (s : State) (r : Reason) :
    (s.endBattle r).abortDraws = s.abortDraws := rfl
@[simp] theorem State.endBattle_pending (s : State) (r : Reason) :
    (s.endBattle r).pending = s.pending := rfl
@[simp] theorem State.endBattle_answer (s : State) (r : Reason) :
    (s.endBattle r).answer = s.answer := rfl

/-! ## `State.commitBytes`: it changes the arena's bytes and the notifications only -/

@[simp] theorem State.commitBytes_config (s : State) (a v : Word) (n : Nat) : (s.commitBytes a v n).config = s.config := by
  induction n with
  | zero => rfl
  | succ n ih => exact ih
@[simp] theorem State.commitBytes_warriors (s : State) (a v : Word) (n : Nat) : (s.commitBytes a v n).warriors = s.warriors := by
  induction n with
  | zero => rfl
  | succ n ih => exact ih
@[simp] theorem State.commitBytes_phase (s : State) (a v : Word) (n : Nat) : (s.commitBytes a v n).phase = s.phase := by
  induction n with
  | zero => rfl
  | succ n ih => exact ih
@[simp] theorem State.commitBytes_listener (s : State) (a v : Word) (n : Nat) : (s.commitBytes a v n).listener = s.listener := by
  induction n with
  | zero => rfl
  | succ n ih => exact ih
@[simp] theorem State.commitBytes_schedState (s : State) (a v : Word) (n : Nat) : (s.commitBytes a v n).schedState = s.schedState := by
  induction n with
  | zero => rfl
  | succ n ih => exact ih
@[simp] theorem State.commitBytes_roundsCompleted (s : State) (a v : Word) (n : Nat) : (s.commitBytes a v n).roundsCompleted = s.roundsCompleted := by
  induction n with
  | zero => rfl
  | succ n ih => exact ih
@[simp] theorem State.commitBytes_cursor (s : State) (a v : Word) (n : Nat) : (s.commitBytes a v n).cursor = s.cursor := by
  induction n with
  | zero => rfl
  | succ n ih => exact ih
@[simp] theorem State.commitBytes_reason (s : State) (a v : Word) (n : Nat) : (s.commitBytes a v n).reason = s.reason := by
  induction n with
  | zero => rfl
  | succ n ih => exact ih
@[simp] theorem State.commitBytes_events (s : State) (a v : Word) (n : Nat) : (s.commitBytes a v n).events = s.events := by
  induction n with
  | zero => rfl
  | succ n ih => exact ih
@[simp] theorem State.commitBytes_abortDraws (s : State) (a v : Word) (n : Nat) : (s.commitBytes a v n).abortDraws = s.abortDraws := by
  induction n with
  | zero => rfl
  | succ n ih => exact ih
@[simp] theorem State.commitBytes_pending (s : State) (a v : Word) (n : Nat) : (s.commitBytes a v n).pending = s.pending := by
  induction n with
  | zero => rfl
  | succ n ih => exact ih
@[simp] theorem State.commitBytes_answer (s : State) (a v : Word) (n : Nat) : (s.commitBytes a v n).answer = s.answer := by
  induction n with
  | zero => rfl
  | succ n ih => exact ih

/-! ## `State.boundaryCheck`: what it never changes, and what it does when it ends the battle or not -/

@[simp] theorem State.boundaryCheck_config (s : State) : s.boundaryCheck.config = s.config := by
  unfold State.boundaryCheck
  split <;> rfl
@[simp] theorem State.boundaryCheck_warriors (s : State) : s.boundaryCheck.warriors = s.warriors := by
  unfold State.boundaryCheck
  split <;> rfl
@[simp] theorem State.boundaryCheck_mem (s : State) : s.boundaryCheck.mem = s.mem := by
  unfold State.boundaryCheck
  split <;> rfl
@[simp] theorem State.boundaryCheck_phase (s : State) : s.boundaryCheck.phase = s.phase := by
  unfold State.boundaryCheck
  split <;> rfl
@[simp] theorem State.boundaryCheck_listener (s : State) : s.boundaryCheck.listener = s.listener := by
  unfold State.boundaryCheck
  split <;> rfl
@[simp] theorem State.boundaryCheck_notifications (s : State) : s.boundaryCheck.notifications = s.notifications := by
  unfold State.boundaryCheck
  split <;> rfl
@[simp] theorem State.boundaryCheck_roundsCompleted (s : State) : s.boundaryCheck.roundsCompleted = s.roundsCompleted := by
  unfold State.boundaryCheck
  split <;> rfl
@[simp] theorem State.boundaryCheck_cursor (s : State) : s.boundaryCheck.cursor = s.cursor := by
  unfold State.boundaryCheck
  split <;> rfl
@[simp] theorem State.boundaryCheck_pending (s : State) : s.boundaryCheck.pending = s.pending := by
  unfold State.boundaryCheck
  split <;> rfl
@[simp] theorem State.boundaryCheck_answer (s : State) : s.boundaryCheck.answer = s.answer := by
  unfold State.boundaryCheck
  split <;> rfl
@[simp] theorem State.boundaryCheck_abortDraws (s : State) : s.boundaryCheck.abortDraws = s.abortDraws.tail := by
  unfold State.boundaryCheck
  split <;> rfl

theorem State.boundaryCheck_some {s : State} {r : Reason} (h : s.endReason? = some r) :
    s.boundaryCheck = { s with abortDraws := s.abortDraws.tail }.endBattle r := by
  simp [State.boundaryCheck, h]

theorem State.boundaryCheck_none {s : State} (h : s.endReason? = none) :
    s.boundaryCheck = { s with abortDraws := s.abortDraws.tail } := by
  simp [State.boundaryCheck, h]

/-- When no line of R185 holds, two warriors live and the cap is not reached. -/
theorem State.endReason?_none {s : State} (h : s.endReason? = none) :
    2 ≤ s.aliveCount ∧ s.roundsCompleted < s.config.roundCap ∧ s.abortRequested = false := by
  unfold State.endReason? at h
  by_cases h0 : s.aliveCount = 0
  · simp [h0] at h
  by_cases h1 : s.aliveCount = 1
  · simp [h1] at h
  by_cases h2 : s.config.roundCap ≤ s.roundsCompleted
  · simp [h0, h1, h2] at h
  by_cases h3 : s.abortRequested = true
  · simp [h0, h1, h2, h3] at h
  exact ⟨by omega, by omega, by simpa using h3⟩

/-! ## Reset -/

theorem State.reset_mem_wf : Memory.wf State.reset.mem := ⟨List.Pairwise.nil, fun _ h => nomatch h⟩

end Sys2Proof.Machine
end

