-- ==== Sys2Proof/Laws/Ops.lean ====
section
/-! SUPPORT. One lemma for each shared operation that says what it does: translation, the access check, reading and
writing the arena, taking a fault, and ending an instruction. -/

namespace Sys2Proof.Machine

/-! ## Translation and the access check -/

/-- Translation stays inside the arena (R51). -/
theorem translateAddr_lt {cfg : BattleConfig} (h : 0 < cfg.arenaSize) (segment offset : Nat) :
    translateAddr cfg segment offset < cfg.arenaSize := Nat.mod_lt _ h

theorem linAddr_lt {cfg : BattleConfig} (h : 0 < cfg.arenaSize) (a : Word) (i : Nat) :
    linAddr cfg a i < cfg.arenaSize := translateAddr_lt h _ _

/-- No byte is refused exactly when each is admitted. -/
theorem firstRefused_none {cfg : BattleConfig} {a : Word} {n : Nat} {kind : AccessKind} :
    firstRefused cfg a n kind = none ↔ Admits cfg a n kind := by
  simp [firstRefused, linAddrs, Admits]

/-- The refused byte the check reports is the first one. -/
theorem firstRefused_eq_of_refusesFirst {cfg : BattleConfig} {a : Word} {n j : Nat} {kind : AccessKind}
    (h : RefusesFirst cfg a n kind j) : firstRefused cfg a n kind = some (linAddr cfg a j) := by
  unfold firstRefused linAddrs
  rw [List.find?_map, Option.map_eq_some_iff]
  refine ⟨j, ?_, rfl⟩
  rw [List.find?_range_eq_some]
  refine ⟨by simp [h.refused], by simpa using h.inAccess, fun i hi => by simp [h.before i hi]⟩

/-- Either every byte is admitted or there is a first one that is not. -/
theorem admits_or_refusesFirst (cfg : BattleConfig) (a : Word) (n : Nat) (kind : AccessKind) :
    Admits cfg a n kind ∨ ∃ j, RefusesFirst cfg a n kind j := by
  by_cases h : ∃ j, j < n ∧ accessible cfg (linAddr cfg a j) kind = false
  · classical
    refine .inr ⟨Nat.find h, (Nat.find_spec h).1, (Nat.find_spec h).2, fun i hi => ?_⟩
    have := Nat.find_min h hi
    have hn := (Nat.find_spec h).1
    by_contra hc
    exact this ⟨by omega, by simpa using hc⟩
  · refine .inl fun i hi => ?_
    by_contra hc
    exact h ⟨i, hi, by simpa using hc⟩

/-! ## Reading and writing the arena -/

/-- An admitted read gives the little-endian value (R55). -/
theorem memRead_admitted {s : State} {a : Word} {n : Nat} {kind : AccessKind} (h : Admits s.config a n kind) :
    memRead s a n kind = .ok (leWord ((List.range n).map (s.byteAt a))) := by
  simp [memRead, firstRefused_none.mpr h]

/-- A refused read reports its first refused byte (R53). -/
theorem memRead_refused {s : State} {a : Word} {n j : Nat} {kind : AccessKind} (h : RefusesFirst s.config a n kind j) :
    memRead s a n kind = .error (.memoryFault (linAddr s.config a j) kind) := by
  simp [memRead, firstRefused_eq_of_refusesFirst h]

/-- An admitted write commits its bytes (R56). -/
theorem memWrite_admitted {s : State} {a v : Word} {n : Nat} (h : Admits s.config a n .write) :
    memWrite s a n v = .ok (s.commitBytes a v n) := by
  simp [memWrite, firstRefused_none.mpr h]

/-- A refused write writes nothing and reports its first refused byte (R53). -/
theorem memWrite_refused {s : State} {a v : Word} {n j : Nat} (h : RefusesFirst s.config a n .write j) :
    memWrite s a n v = .error (.memoryFault (linAddr s.config a j) .write) := by
  simp [memWrite, firstRefused_eq_of_refusesFirst h]

@[simp] theorem State.commitBytes_zero (s : State) (a v : Word) : s.commitBytes a v 0 = s := rfl

theorem State.commitBytes_succ_mem (s : State) (a v : Word) (n : Nat) :
    (s.commitBytes a v (n + 1)).mem =
      Memory.write (s.commitBytes a v n).mem (linAddr s.config a n) (byteOf v n) := rfl

/-- Committing bytes keeps the memory's canonical form. -/
theorem State.commitBytes_wf {s : State} (h : Memory.wf s.mem) (a v : Word) (n : Nat) :
    Memory.wf (s.commitBytes a v n).mem := by
  induction n with
  | zero => exact h
  | succ n ih => exact Memory.wf_write ih _ _

/-- Committing bytes keeps every listed byte inside the arena. -/
theorem State.commitBytes_within {s : State} (h0 : 0 < s.config.arenaSize)
    (h : Memory.within s.mem s.config.arenaSize) (a v : Word) (n : Nat) :
    Memory.within (s.commitBytes a v n).mem s.config.arenaSize := by
  induction n with
  | zero => exact h
  | succ n ih => exact Memory.within_write ih (linAddr_lt h0 a n) _

/-- A byte outside the committed ones reads as before. -/
theorem State.commitBytes_outside {s : State} {a v : Word} {n l : Nat} (h : ∀ i, i < n → l ≠ linAddr s.config a i) :
    Memory.read (s.commitBytes a v n).mem l = Memory.read s.mem l := by
  induction n with
  | zero => rfl
  | succ n ih =>
    rw [State.commitBytes_succ_mem, Memory.read_write_other (h n (by omega))]
    exact ih fun i hi => h i (by omega)

/-- A committed byte reads as committed unless a later byte of the same store goes to its address. -/
theorem State.commitBytes_stored {s : State} (hm : Memory.wf s.mem) {a v : Word} {n i : Nat} (hi : i < n)
    (h : ∀ j, i < j → j < n → linAddr s.config a j ≠ linAddr s.config a i) :
    Memory.read (s.commitBytes a v n).mem (linAddr s.config a i) = byteOf v i := by
  induction n with
  | zero => omega
  | succ n ih =>
    rw [State.commitBytes_succ_mem]
    by_cases e : i = n
    · subst e
      exact Memory.read_write_same (State.commitBytes_wf hm a v i) _ _
    · rw [Memory.read_write_other (h n (by omega) (by omega)).symm]
      exact ih (by omega) fun j h1 h2 => h j h1 (by omega)

/-- The notifications of a store, in ascending order (R57). -/
theorem State.commitBytes_notifications (s : State) (a v : Word) (n : Nat) :
    (s.commitBytes a v n).notifications =
      if s.listener then
        s.notifications ++ (List.range n).map (fun i => ⟨linAddr s.config a i, byteOf v i, s.phase⟩)
      else s.notifications := by
  induction n with
  | zero => simp
  | succ n ih =>
    show (if (s.commitBytes a v n).listener then _ else _) = _
    rw [State.commitBytes_listener, State.commitBytes_phase, ih]
    split <;> simp [List.range_succ]

/-! ## The ends of an instruction -/

theorem SameBattle.refl (s : State) : SameBattle s s := ⟨rfl, rfl, rfl, rfl, rfl, rfl, rfl, rfl, rfl, rfl⟩

theorem SameArena.refl (s : State) : SameArena s s := ⟨fun _ => rfl, rfl⟩

/-- Replacing the open slot's record leaves the others. -/
theorem sameOthers_setSlot (s : State) (w : Warrior) : SameOthers s (s.setSlot w) where
  length := by simp
  others k hk := by simp [List.getElem?_set_ne (Ne.symm hk)]

/-- What the CPU state written at an instruction's end reads. -/
theorem contextAfter_setCpu {s : State} {w : Warrior} (h : s.slot? = some w) (rd : RegIdx) (v pc : Word) :
    ContextAfter w (s.setCpu w ((w.cpu.write rd v).setPc pc)) rd v pc :=
  ⟨_, State.slot?_setCpu h _, rfl, fun r => Cpu.read_write w.cpu rd r v⟩

/-- An instruction that writes a register (or none, with `rd` x0) does that and nothing else. -/
theorem retire_effect {s : State} {w : Warrior} (h : s.slot? = some w) (rd : RegIdx) (v pc : Word) :
    ∃ t, retire s w rd v pc = .next t ∧ RegisterEffect s w t rd v pc :=
  ⟨_, rfl, contextAfter_setCpu h rd v pc, ⟨fun _ => rfl, rfl⟩, rfl, ⟨rfl, rfl, rfl, rfl, rfl, rfl, rfl, rfl, rfl, rfl⟩,
    sameOthers_setSlot s _⟩

/-- Going to a pc is retiring with x0 as the destination. -/
theorem goTo_eq_retire (s : State) (w : Warrior) (pc : Word) : goTo s w pc = retire s w 0#5 0#32 pc := rfl

theorem goTo_effect {s : State} {w : Warrior} (h : s.slot? = some w) (pc : Word) :
    ∃ t, goTo s w pc = .next t ∧ PcEffect s w t pc := retire_effect h 0#5 0#32 pc

/-- Taking a fault is the warrior's death and nothing else (R177, R179). -/
theorem takeFault_effect {s : State} {w : Warrior} (h : s.slot? = some w) (f : WarriorFault) :
    DeathEffect s w (s.takeFault w f) f where
  dead := by
    rw [State.takeFault_warriors, List.getElem?_set_self (State.slot?_lt h)]
  events := rfl
  arena := ⟨fun _ => rfl, rfl⟩
  battle := ⟨rfl, rfl, rfl, rfl, rfl, rfl, rfl, rfl, rfl, rfl⟩
  others := ⟨(sameOthers_setSlot s { w with alive := false }).length,
    (sameOthers_setSlot s { w with alive := false }).others⟩

/-- Committing bytes leaves the slot open. -/
theorem State.commitBytes_slot? (s : State) (a v : Word) (n : Nat) : (s.commitBytes a v n).slot? = s.slot? := by
  simp [State.slot?]

/-- The bytes committed, then the pc moved: a store. -/
theorem store_effect {s : State} {w : Warrior} (h : s.slot? = some w) (hm : Memory.wf s.mem) (a v pc : Word) (n : Nat) :
    ∃ t, goTo (s.commitBytes a v n) w pc = .next t ∧ StoreEffect s w t a n v pc := by
  refine ⟨_, rfl, ?_, ?_, ?_, ?_, ?_, ?_, ?_⟩
  · exact contextAfter_setCpu ((State.commitBytes_slot? s a v n).trans h) 0#5 0#32 pc
  · intro l hl
    exact State.commitBytes_outside hl
  · intro i hi hj
    exact State.commitBytes_stored hm hi hj
  · simpa [byteOf] using State.commitBytes_notifications s a v n
  · simp
  · constructor <;> simp
  · exact ⟨by simp, fun k hk => by simp [List.getElem?_set_ne (Ne.symm hk)]⟩

/-! ## After a next state -/

@[simp] theorem onNext_next (f : State → State) (s : State) : onNext f (.next s) = .next (f s) := rfl

end Sys2Proof.Machine
end

