-- ==== Sys2Proof/Laws/PerInstr.lean ====
section
/-! SUPPORT. Statements about every instruction as syntax, one lemma per constructor of `Instr`. -/

/-- The word of an instruction is one of its own row of spec/opcode_table.json (R99): its fixed bits are the row's. -/
def Sys2Proof.Laws.EncodesRow.Statement (i : Sys2Proof.Instr) : Prop := i.row.matches (Sys2Proof.encode i) = true

namespace Sys2Proof.Laws.EncodesRow

theorem add (rd rs1 rs2 : RegIdx) : Statement (.add rd rs1 rs2) := by
  simp only [Statement, Row.matches, Instr.row, encode, encodeR_fixed_all]
  decide

theorem sub (rd rs1 rs2 : RegIdx) : Statement (.sub rd rs1 rs2) := by
  simp only [Statement, Row.matches, Instr.row, encode, encodeR_fixed_all]
  decide

theorem sll (rd rs1 rs2 : RegIdx) : Statement (.sll rd rs1 rs2) := by
  simp only [Statement, Row.matches, Instr.row, encode, encodeR_fixed_f3]
  decide

theorem slt (rd rs1 rs2 : RegIdx) : Statement (.slt rd rs1 rs2) := by
  simp only [Statement, Row.matches, Instr.row, encode, encodeR_fixed_all]
  decide

theorem sltu (rd rs1 rs2 : RegIdx) : Statement (.sltu rd rs1 rs2) := by
  simp only [Statement, Row.matches, Instr.row, encode, encodeR_fixed_all]
  decide

theorem xor (rd rs1 rs2 : RegIdx) : Statement (.xor rd rs1 rs2) := by
  simp only [Statement, Row.matches, Instr.row, encode, encodeR_fixed_all]
  decide

theorem srl (rd rs1 rs2 : RegIdx) : Statement (.srl rd rs1 rs2) := by
  simp only [Statement, Row.matches, Instr.row, encode, encodeR_fixed_all]
  decide

theorem sra (rd rs1 rs2 : RegIdx) : Statement (.sra rd rs1 rs2) := by
  simp only [Statement, Row.matches, Instr.row, encode, encodeR_fixed_all]
  decide

theorem or (rd rs1 rs2 : RegIdx) : Statement (.or rd rs1 rs2) := by
  simp only [Statement, Row.matches, Instr.row, encode, encodeR_fixed_all]
  decide

theorem and (rd rs1 rs2 : RegIdx) : Statement (.and rd rs1 rs2) := by
  simp only [Statement, Row.matches, Instr.row, encode, encodeR_fixed_all]
  decide

theorem addi (rd rs1 : RegIdx) (imm : BitVec 12) : Statement (.addi rd rs1 imm) := by
  simp only [Statement, Row.matches, Instr.row, encode, encodeI_fixed_f3]
  decide

theorem slti (rd rs1 : RegIdx) (imm : BitVec 12) : Statement (.slti rd rs1 imm) := by
  simp only [Statement, Row.matches, Instr.row, encode, encodeI_fixed_f3]
  decide

theorem sltiu (rd rs1 : RegIdx) (imm : BitVec 12) : Statement (.sltiu rd rs1 imm) := by
  simp only [Statement, Row.matches, Instr.row, encode, encodeI_fixed_f3]
  decide

theorem xori (rd rs1 : RegIdx) (imm : BitVec 12) : Statement (.xori rd rs1 imm) := by
  simp only [Statement, Row.matches, Instr.row, encode, encodeI_fixed_f3]
  decide

theorem ori (rd rs1 : RegIdx) (imm : BitVec 12) : Statement (.ori rd rs1 imm) := by
  simp only [Statement, Row.matches, Instr.row, encode, encodeI_fixed_f3]
  decide

theorem andi (rd rs1 : RegIdx) (imm : BitVec 12) : Statement (.andi rd rs1 imm) := by
  simp only [Statement, Row.matches, Instr.row, encode, encodeI_fixed_f3]
  decide

theorem slli (rd rs1 : RegIdx) (shamt : BitVec 5) : Statement (.slli rd rs1 shamt) := by
  simp only [Statement, Row.matches, Instr.row, encode, encodeR_fixed_f3]
  decide

theorem srli (rd rs1 : RegIdx) (shamt : BitVec 5) : Statement (.srli rd rs1 shamt) := by
  simp only [Statement, Row.matches, Instr.row, encode, encodeR_fixed_all]
  decide

theorem srai (rd rs1 : RegIdx) (shamt : BitVec 5) : Statement (.srai rd rs1 shamt) := by
  simp only [Statement, Row.matches, Instr.row, encode, encodeR_fixed_all]
  decide

theorem lui (rd : RegIdx) (imm : BitVec 20) : Statement (.lui rd imm) := by
  simp only [Statement, Row.matches, Instr.row, encode, encodeU_fixed_op]
  decide

theorem auipc (rd : RegIdx) (imm : BitVec 20) : Statement (.auipc rd imm) := by
  simp only [Statement, Row.matches, Instr.row, encode, encodeU_fixed_op]
  decide

theorem beq (rs1 rs2 : RegIdx) (offset : BitVec 13) : Statement (.beq rs1 rs2 offset) := by
  simp only [Statement, Row.matches, Instr.row, encode, encodeB_fixed_f3]
  decide

theorem bne (rs1 rs2 : RegIdx) (offset : BitVec 13) : Statement (.bne rs1 rs2 offset) := by
  simp only [Statement, Row.matches, Instr.row, encode, encodeB_fixed_f3]
  decide

theorem blt (rs1 rs2 : RegIdx) (offset : BitVec 13) : Statement (.blt rs1 rs2 offset) := by
  simp only [Statement, Row.matches, Instr.row, encode, encodeB_fixed_f3]
  decide

theorem bge (rs1 rs2 : RegIdx) (offset : BitVec 13) : Statement (.bge rs1 rs2 offset) := by
  simp only [Statement, Row.matches, Instr.row, encode, encodeB_fixed_f3]
  decide

theorem bltu (rs1 rs2 : RegIdx) (offset : BitVec 13) : Statement (.bltu rs1 rs2 offset) := by
  simp only [Statement, Row.matches, Instr.row, encode, encodeB_fixed_f3]
  decide

theorem bgeu (rs1 rs2 : RegIdx) (offset : BitVec 13) : Statement (.bgeu rs1 rs2 offset) := by
  simp only [Statement, Row.matches, Instr.row, encode, encodeB_fixed_f3]
  decide

theorem jal (rd : RegIdx) (offset : BitVec 21) : Statement (.jal rd offset) := by
  simp only [Statement, Row.matches, Instr.row, encode, encodeJ_fixed_op]
  decide

theorem jalr (rd rs1 : RegIdx) (imm : BitVec 12) : Statement (.jalr rd rs1 imm) := by
  simp only [Statement, Row.matches, Instr.row, encode, encodeI_fixed_f3]
  decide

theorem lb (rd rs1 : RegIdx) (imm : BitVec 12) : Statement (.lb rd rs1 imm) := by
  simp only [Statement, Row.matches, Instr.row, encode, encodeI_fixed_f3]
  decide

theorem lh (rd rs1 : RegIdx) (imm : BitVec 12) : Statement (.lh rd rs1 imm) := by
  simp only [Statement, Row.matches, Instr.row, encode, encodeI_fixed_f3]
  decide

theorem lw (rd rs1 : RegIdx) (imm : BitVec 12) : Statement (.lw rd rs1 imm) := by
  simp only [Statement, Row.matches, Instr.row, encode, encodeI_fixed_f3]
  decide

theorem lbu (rd rs1 : RegIdx) (imm : BitVec 12) : Statement (.lbu rd rs1 imm) := by
  simp only [Statement, Row.matches, Instr.row, encode, encodeI_fixed_f3]
  decide

theorem lhu (rd rs1 : RegIdx) (imm : BitVec 12) : Statement (.lhu rd rs1 imm) := by
  simp only [Statement, Row.matches, Instr.row, encode, encodeI_fixed_f3]
  decide

theorem sb (rs2 rs1 : RegIdx) (imm : BitVec 12) : Statement (.sb rs2 rs1 imm) := by
  simp only [Statement, Row.matches, Instr.row, encode, encodeS_fixed_f3]
  decide

theorem sh (rs2 rs1 : RegIdx) (imm : BitVec 12) : Statement (.sh rs2 rs1 imm) := by
  simp only [Statement, Row.matches, Instr.row, encode, encodeS_fixed_f3]
  decide

theorem sw (rs2 rs1 : RegIdx) (imm : BitVec 12) : Statement (.sw rs2 rs1 imm) := by
  simp only [Statement, Row.matches, Instr.row, encode, encodeS_fixed_f3]
  decide

end Sys2Proof.Laws.EncodesRow
end

