-- ==== Sys2Proof/Laws/Step.lean ====
section
/-! SUPPORT. What an instruction, a warrior's step, a slot and a machine step can do: one lemma each, which later proofs
cite instead of unfolding them. -/

namespace Sys2Proof.Machine

/-- What an instruction of the open slot's warrior comes to: the bytes it commits (none but for a store) and its new CPU
state, or its death. -/
inductive Action where
  | done (a v : Word) (n : Nat) (c : Cpu)
  | died (f : WarriorFault)

/-- The state an action of the warrior `w` leaves. -/
def Action.apply (A : Action) (s : State) (w : Warrior) : State :=
  match A with
  | .done a v n c => (s.commitBytes a v n).setCpu w c
  | .died f => s.takeFault w f

/-- `r` answers, for every state with an open slot, the state that one action leaves, and the action depends on the
configuration, the arena's bytes and the warrior's own CPU state alone. -/
def Uniform (cfg : BattleConfig) (m : Memory) (c : Cpu) (r : State → Result) : Prop :=
  ∃ A : Action, ∀ (s : State) (w : Warrior), s.slot? = some w → s.config = cfg → s.mem = m → w.cpu = c →
    r s = .next (A.apply s w)

theorem uniform_retire (cfg : BattleConfig) (m : Memory) (c : Cpu) (rd : RegIdx) (v pc : Cpu → Word) :
    Uniform cfg m c fun s => inSlot s fun w => retire s w rd (v w.cpu) (pc w.cpu) := by
  refine ⟨.done 0 0 0 ((c.write rd (v c)).setPc (pc c)), fun s w h _ _ hw => ?_⟩
  subst hw
  exact inSlot_open h _

theorem uniform_branch (cfg : BattleConfig) (m : Memory) (c : Cpu) (cond : Word → Word → Bool) (rs1 rs2 : RegIdx)
    (offset : BitVec 13) : Uniform cfg m c (branch cond rs1 rs2 offset) :=
  uniform_retire cfg m c 0#5 (fun _ => 0#32)
    fun c => if cond (c.read rs1) (c.read rs2) then c.pc + branchOffset offset else c.nextPc

theorem uniform_memRead {s : State} {cfg : BattleConfig} {m : Memory} (hc : s.config = cfg) (hm : s.mem = m) (a : Word)
    (n : Nat) (kind : AccessKind) :
    memRead s a n kind =
      match firstRefused cfg a n kind with
      | some l => .error (.memoryFault l kind)
      | none => .ok (leWord ((List.range n).map fun i => Memory.read m (linAddr cfg a i))) := by
  subst hc hm
  rfl

theorem uniform_load (cfg : BattleConfig) (m : Memory) (c : Cpu) (n : Nat) (ext : Word → Word) (rd rs1 : RegIdx)
    (imm : BitVec 12) : Uniform cfg m c (load n ext rd rs1 imm) := by
  cases h : firstRefused cfg (effectiveAddress c rs1 imm) n .read with
  | some l =>
    refine ⟨.died (.memoryFault l .read), fun s w hs hc hm hw => ?_⟩
    subst hw
    simp [load, inSlot_open hs, uniform_memRead hc hm, h, Action.apply]
  | none =>
    refine ⟨.done 0 0 0 ((c.write rd (ext (leWord ((List.range n).map fun i =>
      Memory.read m (linAddr cfg (effectiveAddress c rs1 imm) i))))).setPc c.nextPc), fun s w hs hc hm hw => ?_⟩
    subst hw
    simp [load, inSlot_open hs, uniform_memRead hc hm, h, Action.apply, retire]

theorem uniform_store (cfg : BattleConfig) (m : Memory) (c : Cpu) (n : Nat) (rs2 rs1 : RegIdx) (imm : BitVec 12) :
    Uniform cfg m c (store n rs2 rs1 imm) := by
  cases h : firstRefused cfg (effectiveAddress c rs1 imm) n .write with
  | some l =>
    refine ⟨.died (.memoryFault l .write), fun s w hs hc hm hw => ?_⟩
    subst hw hc
    simp [store, inSlot_open hs, memWrite, h, Action.apply]
  | none =>
    refine ⟨.done (effectiveAddress c rs1 imm) (c.read rs2) n (c.setPc c.nextPc), fun s w hs hc hm hw => ?_⟩
    subst hw hc
    simp [store, inSlot_open hs, memWrite, h, Action.apply, goTo]

/-- Every instruction comes to one action, which depends on the configuration, the arena's bytes and the warrior's own CPU
state alone (R26). -/
theorem exec_uniform (cfg : BattleConfig) (m : Memory) (c : Cpu) (i : Instr) : Uniform cfg m c (exec i) := by
  cases i with
  | add rd rs1 rs2 => exact uniform_retire cfg m c rd (fun c => c.read rs1 + (c.read rs2)) (fun c => c.nextPc)
  | sub rd rs1 rs2 => exact uniform_retire cfg m c rd (fun c => c.read rs1 - (c.read rs2)) (fun c => c.nextPc)
  | sll rd rs1 rs2 => exact uniform_retire cfg m c rd (fun c => shiftLeft (c.read rs1) (shiftAmount (c.read rs2))) (fun c => c.nextPc)
  | slt rd rs1 rs2 => exact uniform_retire cfg m c rd (fun c => boolWord (lessSigned (c.read rs1) (c.read rs2))) (fun c => c.nextPc)
  | sltu rd rs1 rs2 => exact uniform_retire cfg m c rd (fun c => boolWord (lessUnsigned (c.read rs1) (c.read rs2))) (fun c => c.nextPc)
  | xor rd rs1 rs2 => exact uniform_retire cfg m c rd (fun c => c.read rs1 ^^^ (c.read rs2)) (fun c => c.nextPc)
  | srl rd rs1 rs2 => exact uniform_retire cfg m c rd (fun c => shiftRight (c.read rs1) (shiftAmount (c.read rs2))) (fun c => c.nextPc)
  | sra rd rs1 rs2 => exact uniform_retire cfg m c rd (fun c => shiftRightSigned (c.read rs1) (shiftAmount (c.read rs2))) (fun c => c.nextPc)
  | or rd rs1 rs2 => exact uniform_retire cfg m c rd (fun c => c.read rs1 ||| (c.read rs2)) (fun c => c.nextPc)
  | and rd rs1 rs2 => exact uniform_retire cfg m c rd (fun c => c.read rs1 &&& (c.read rs2)) (fun c => c.nextPc)
  | addi rd rs1 imm => exact uniform_retire cfg m c rd (fun c => c.read rs1 + (simm12 imm)) (fun c => c.nextPc)
  | slti rd rs1 imm => exact uniform_retire cfg m c rd (fun c => boolWord (lessSigned (c.read rs1) (simm12 imm))) (fun c => c.nextPc)
  | sltiu rd rs1 imm => exact uniform_retire cfg m c rd (fun c => boolWord (lessUnsigned (c.read rs1) (simm12 imm))) (fun c => c.nextPc)
  | xori rd rs1 imm => exact uniform_retire cfg m c rd (fun c => c.read rs1 ^^^ (simm12 imm)) (fun c => c.nextPc)
  | ori rd rs1 imm => exact uniform_retire cfg m c rd (fun c => c.read rs1 ||| (simm12 imm)) (fun c => c.nextPc)
  | andi rd rs1 imm => exact uniform_retire cfg m c rd (fun c => c.read rs1 &&& (simm12 imm)) (fun c => c.nextPc)
  | slli rd rs1 shamt => exact uniform_retire cfg m c rd (fun c => shiftLeft (c.read rs1) shamt) (fun c => c.nextPc)
  | srli rd rs1 shamt => exact uniform_retire cfg m c rd (fun c => shiftRight (c.read rs1) shamt) (fun c => c.nextPc)
  | srai rd rs1 shamt => exact uniform_retire cfg m c rd (fun c => shiftRightSigned (c.read rs1) shamt) (fun c => c.nextPc)
  | lui rd imm => exact uniform_retire cfg m c rd (fun _ => upperImm imm) (fun c => c.nextPc)
  | auipc rd imm => exact uniform_retire cfg m c rd (fun c => c.pc + upperImm imm) (fun c => c.nextPc)
  | beq rs1 rs2 offset => exact uniform_branch cfg m c (fun a b => a == b) rs1 rs2 offset
  | bne rs1 rs2 offset => exact uniform_branch cfg m c (fun a b => a != b) rs1 rs2 offset
  | blt rs1 rs2 offset => exact uniform_branch cfg m c lessSigned rs1 rs2 offset
  | bge rs1 rs2 offset => exact uniform_branch cfg m c (fun a b => !lessSigned a b) rs1 rs2 offset
  | bltu rs1 rs2 offset => exact uniform_branch cfg m c lessUnsigned rs1 rs2 offset
  | bgeu rs1 rs2 offset => exact uniform_branch cfg m c (fun a b => !lessUnsigned a b) rs1 rs2 offset
  | jal rd offset => exact uniform_retire cfg m c rd (fun c => c.nextPc) (fun c => c.pc + jumpOffset offset)
  | jalr rd rs1 imm => exact uniform_retire cfg m c rd (fun c => c.nextPc) (fun c => effectiveAddress c rs1 imm)
  | lb rd rs1 imm => exact uniform_load cfg m c ..
  | lh rd rs1 imm => exact uniform_load cfg m c ..
  | lw rd rs1 imm => exact uniform_load cfg m c ..
  | lbu rd rs1 imm => exact uniform_load cfg m c ..
  | lhu rd rs1 imm => exact uniform_load cfg m c ..
  | sb rs2 rs1 imm => exact uniform_store cfg m c ..
  | sh rs2 rs1 imm => exact uniform_store cfg m c ..
  | sw rs2 rs1 imm => exact uniform_store cfg m c ..

/-- So does a live warrior's whole step. -/
theorem warriorStep_uniform (cfg : BattleConfig) (m : Memory) (c : Cpu) : Uniform cfg m c warriorStep := by
  cases hf : firstRefused cfg c.pc 4 .fetch with
  | some l =>
    refine ⟨.died (.memoryFault l .fetch), fun s w hs hc hm hw => ?_⟩
    subst hw
    simp [warriorStep, inSlot_open hs, fetch, uniform_memRead hc hm, hf, Action.apply]
  | none =>
    cases hd : decode (leWord ((List.range 4).map fun i => Memory.read m (linAddr cfg c.pc i))) with
    | error e =>
      refine ⟨.died (.illegalOpcode c.pc (leWord ((List.range 4).map fun i => Memory.read m (linAddr cfg c.pc i)))),
        fun s w hs hc hm hw => ?_⟩
      subst hw
      simp only [warriorStep, inSlot_open hs, fetch, uniform_memRead hc hm, hf, hd, Action.apply]
    | ok i =>
      obtain ⟨A, hA⟩ := exec_uniform cfg m c i
      refine ⟨A, fun s w hs hc hm hw => ?_⟩
      rw [← hA s w hs hc hm hw]
      subst hw
      simp only [warriorStep, inSlot_open hs, fetch, uniform_memRead hc hm, hf, hd]

/-- The result is a next state an action of `w` leaves. -/
def Runs (s : State) (w : Warrior) (r : Result) : Prop := ∃ A : Action, r = .next (A.apply s w)

/-- With a slot open every instruction answers a next state: it has run or its warrior has died. -/
theorem exec_runs {s : State} {w : Warrior} (h : s.slot? = some w) (i : Instr) : Runs s w (exec i s) := by
  obtain ⟨A, hA⟩ := exec_uniform s.config s.mem w.cpu i
  exact ⟨A, hA s w h rfl rfl rfl⟩

/-- A live warrior's step answers a next state: its instruction has run or it has died. -/
theorem warriorStep_runs {s : State} {w : Warrior} (h : s.slot? = some w) : Runs s w (warriorStep s) := by
  obtain ⟨A, hA⟩ := warriorStep_uniform s.config s.mem w.cpu
  exact ⟨A, hA s w h rfl rfl rfl⟩

/-- A word the decoder rejects is an illegal word: fetching it is the warrior's death. -/
theorem illegalWord_of_rejected {word : Word} {e : DecodeError} (h : decode word = .error e) : IllegalWord word where
  rejected := ⟨e, h⟩
  kills s w hw hf := ⟨_, by simp only [warriorStep, inSlot_open hw, hf, h], takeFault_effect hw _⟩

/-- An action leaves the configuration, the phase, the listener, the scheduler and the host port alone. -/
theorem Action.apply_battle (A : Action) (s : State) (w : Warrior) : SameBattle s (A.apply s w) := by
  cases A <;> constructor <;> simp [Action.apply]

/-- An action replaces the slot's record by one that differs in the CPU state and the liveness at most. -/
theorem Action.apply_warriors (A : Action) (s : State) (w : Warrior) :
    ∃ v : Warrior, (A.apply s w).warriors = s.warriors.set s.cursor v ∧ v = { w with cpu := v.cpu, alive := v.alive } := by
  cases A
  · exact ⟨_, by simp [Action.apply]; rfl, rfl⟩
  · exact ⟨_, by simp [Action.apply]; rfl, rfl⟩

/-- An action keeps the memory's canonical form. -/
theorem Action.apply_wf (A : Action) {s : State} (h : Memory.wf s.mem) (w : Warrior) :
    Memory.wf (A.apply s w).mem := by
  cases A
  · exact State.commitBytes_wf h ..
  · exact h

/-- An action keeps every listed byte inside the arena. -/
theorem Action.apply_within (A : Action) {s : State} (h0 : 0 < s.config.arenaSize)
    (h : Memory.within s.mem s.config.arenaSize) (w : Warrior) :
    Memory.within (A.apply s w).mem s.config.arenaSize := by
  cases A
  · exact fun c hc => State.commitBytes_within h0 h _ _ _ c hc
  · exact h

/-- A slot answers a next state: the live warrior's step and the cursor moved on, or the cursor moved on alone. -/
theorem slot_next (s : State) :
    (∃ w A, s.slot? = some w ∧ warriorStep s = .next (A.apply s w) ∧ slot s = .next (Action.apply A s w).nextSlot) ∨ (s.slot? = none ∧ slot s = .next s.nextSlot) := by
  cases h : s.slot? with
  | none => exact .inr ⟨rfl, by simp [slot, h]⟩
  | some w =>
    obtain ⟨A, hA⟩ := warriorStep_runs h
    exact .inl ⟨w, A, rfl, hA, by simp [slot, h, hA]⟩

/-- A guarded transition that answers a next state had an admitted configuration. -/
theorem guarded_next {s t : State} {r : Result} (h : guarded s r = .next t) : refusal? s.config = none ∧ r = .next t := by
  unfold guarded at h
  split at h
  · exact absurd h (by simp)
  · exact ⟨by assumption, h⟩

/-- An answered `configure`: a setup error changes nothing but the port; else INIT has run. -/
theorem configure_next {b : Battle} {s t : State} (h : configure b s = .next t) :
    (∃ e, setupError? b = some e ∧ t = { s with pending := none, answer := some (.setupError e) }) ∨
    (setupError? b = none ∧ sizeAdmitted b.config = true ∧
      t = { initBattle b s with pending := none, answer := some .ready }) := by
  unfold configure at h
  split at h
  · exact .inl ⟨_, by assumption, by simpa using h.symm⟩
  · split at h
    · exact .inr ⟨by assumption, by assumption, by simpa using h.symm⟩
    · exact absurd h (by simp)

/-- Everything one machine step that answers a next state can be (log 1). -/
theorem step_cases {s t : State} (h : step s = .next t) :
    (s.schedState = .ended ∧ t = s) ∨
    (s.schedState = .init ∧ s.phase = .loading ∧ s.pending = none ∧ t = s) ∨
    (∃ b, s.schedState = .init ∧ s.phase = .loading ∧ s.pending = some b ∧ configure b s = .next t) ∨
    (s.schedState = .init ∧ s.phase = .running ∧ refusal? s.config = none ∧ t = s.firstRound) ∨
    (∃ u, s.schedState = .running ∧ refusal? s.config = none ∧ s.cursor < s.warriors.length ∧ slot s = .next u ∧
      t = u.closeRound) ∨
    (s.schedState = .running ∧ refusal? s.config = none ∧ s.warriors.length ≤ s.cursor ∧ t = s.beginRound.closeRound) := by
  unfold step advance at h
  split at h
  · exact .inl ⟨by assumption, by simpa using h.symm⟩
  · split at h
    · split at h
      · exact .inr (.inr (.inl ⟨_, by assumption, by assumption, by assumption, h⟩))
      · exact .inr (.inl ⟨by assumption, by assumption, by assumption, by simpa using h.symm⟩)
    · obtain ⟨hr, h⟩ := guarded_next h
      exact .inr (.inr (.inr (.inl ⟨by assumption, by assumption, hr, by simpa using h.symm⟩)))
  · obtain ⟨hr, h⟩ := guarded_next h
    split at h
    · rename_i hs _ hc
      rcases slot_next s with ⟨w, u, -, -, hu⟩ | ⟨-, hu⟩
      · rw [hu] at h
        exact .inr (.inr (.inr (.inr (.inl ⟨_, hs, hr, hc, hu, by simpa using h.symm⟩))))
      · rw [hu] at h
        exact .inr (.inr (.inr (.inr (.inl ⟨_, hs, hr, hc, hu, by simpa using h.symm⟩))))
    · exact .inr (.inr (.inr (.inr (.inr ⟨by assumption, hr, by omega, by simpa using h.symm⟩))))

end Sys2Proof.Machine
end

