-- ==== Sys2Proof/Tests/Slice0.lean ====
section
/-! SUPPORT. The model's own tests: WellFormed's refusals; the decoding of one word of every constructor; one step of each
instruction; one transition of INIT and of the scheduler; and a witness for the hypotheses of every statement. Words and
expected values come from the spec: "L2-1" and the like are tables of 95_test_vectors.md, other words are written field by
field from R82, R91 to R97. -/

namespace Sys2Proof.Tests
open Sys2Proof.Machine

/-! ## Small states -/

/-- A CPU state: every register 0 but those listed. -/
def cpuAt (pc : Word) (regs : List (RegIdx × Word)) : Cpu :=
  regs.foldl (fun c p => c.write p.1 p.2) { regs := zeroRegs, pc := pc }

/-- A battle under way in the vectors' arena, two warriors alive, slot 0 open and a listener registered. -/
def machine (pc : Word) (regs : List (RegIdx × Word)) (mem : Memory := []) (refused : List Region := []) : State :=
  { State.reset with
    config := { Config.beforeConfigure with refused := refused }
    warriors := [{ blankWarrior with cpu := cpuAt pc regs }, blankWarrior]
    mem := mem, phase := .running, listener := true, schedState := .running }

/-- The register and the pc of warrior 0. -/
def context (r : RegIdx) : Result → Option (Word × Word)
  | .next t => t.warriors[0]?.map fun w => (w.cpu.read r, w.cpu.pc)
  | _ => none

/-- What warrior 0's step stored: its pc, the bytes notified, and the byte at `a` then. -/
def stored (a : Nat) : Result → Option (Word × List (Nat × Byte) × Byte)
  | .next t => t.warriors[0]?.map fun w => (w.cpu.pc, t.notifications.map (fun n => (n.linear, n.value)), Memory.read t.mem a)
  | _ => none

/-- Is warrior 0 alive, its pc, the notifications and the events. -/
def fate : Result → Option (Bool × Word × List Notification × List Event)
  | .next t => t.warriors[0]?.map fun w => (w.alive, w.cpu.pc, t.notifications, t.events)
  | _ => none

/-- One machine step that fetches the word at pc 0x100. -/
def run (word : Nat) (regs : List (RegIdx × Word)) (mem : Memory := []) (refused : List Region := []) : Result :=
  step ((machine 0x100 regs mem refused).withFetchWord 32 word)

/-- The same at another pc. -/
def runAt (pc : Word) (word : Nat) (regs : List (RegIdx × Word)) : Result :=
  step ((machine pc regs).withFetchWord 32 word)

/-! ## WellFormed refuses an odd offset (R85, R87) -/

theorem test_wellFormed_refuses_odd_beq : Instr.wellFormed (.beq 1 2 9) = false := by decide
theorem test_wellFormed_refuses_odd_bne : Instr.wellFormed (.bne 1 2 9) = false := by decide
theorem test_wellFormed_refuses_odd_blt : Instr.wellFormed (.blt 1 2 9) = false := by decide
theorem test_wellFormed_refuses_odd_bge : Instr.wellFormed (.bge 1 2 9) = false := by decide
theorem test_wellFormed_refuses_odd_bltu : Instr.wellFormed (.bltu 1 2 9) = false := by decide
theorem test_wellFormed_refuses_odd_bgeu : Instr.wellFormed (.bgeu 1 2 9) = false := by decide
theorem test_wellFormed_refuses_odd_jal : Instr.wellFormed (.jal 1 9) = false := by decide
theorem test_wellFormed_takes_even : Instr.wellFormed (.beq 1 2 0x1FFE) = true ∧ Instr.wellFormed (.jal 1 0x1FFFFE) = true := by
  decide

/-! ## Decoding: a word of every constructor -/

theorem test_decode_add : decodeTableWord 32 0x002081B3 = some (.add 3 1 2) := by decide -- L2-1
theorem test_decode_sub : decodeTableWord 32 0x402081B3 = some (.sub 3 1 2) := by decide -- L2-1
theorem test_decode_sll : decodeTableWord 32 0x002091B3 = some (.sll 3 1 2) := by decide -- L2-1
theorem test_decode_slt : decodeTableWord 32 0x0020A1B3 = some (.slt 3 1 2) := by decide -- L2-1
theorem test_decode_sltu : decodeTableWord 32 0x0020B1B3 = some (.sltu 3 1 2) := by decide -- L2-1
theorem test_decode_xor : decodeTableWord 32 0x0010C1B3 = some (.xor 3 1 1) := by decide -- L2-1
theorem test_decode_srl : decodeTableWord 32 0x0020D1B3 = some (.srl 3 1 2) := by decide -- L2-1
theorem test_decode_sra : decodeTableWord 32 0x4020D1B3 = some (.sra 3 1 2) := by decide -- L2-1
theorem test_decode_or : decodeTableWord 32 0x0020E1B3 = some (.or 3 1 2) := by decide -- L2-1
theorem test_decode_and : decodeTableWord 32 0x0000F1B3 = some (.and 3 1 0) := by decide -- L2-1
theorem test_decode_addi : decodeTableWord 32 0x80000093 = some (.addi 1 0 (-2048)) := by decide -- L2-2
theorem test_decode_slti : decodeTableWord 32 0xFFF0A113 = some (.slti 2 1 (-1)) := by decide -- L2-2
theorem test_decode_sltiu : decodeTableWord 32 0x0010B113 = some (.sltiu 2 1 1) := by decide -- L2-2
theorem test_decode_xori : decodeTableWord 32 0xFFF0C113 = some (.xori 2 1 (-1)) := by decide -- L2-2
theorem test_decode_ori : decodeTableWord 32 0x8000E113 = some (.ori 2 1 (-2048)) := by decide -- L2-2
theorem test_decode_andi : decodeTableWord 32 0x7FF0F113 = some (.andi 2 1 2047) := by decide -- L2-2
theorem test_decode_slli : decodeTableWord 32 0x40409113 = some (.slli 2 1 4) := by decide -- L2-2
theorem test_decode_srli : decodeTableWord 32 0x01F0D113 = some (.srli 2 1 31) := by decide -- L2-2
theorem test_decode_srai : decodeTableWord 32 0x4040D113 = some (.srai 2 1 4) := by decide -- L2-2
theorem test_decode_lui : decodeTableWord 32 0x12345037 = some (.lui 0 0x12345) := by decide -- L2-2
theorem test_decode_auipc : decodeTableWord 32 0xFFFFF097 = some (.auipc 1 0xFFFFF) := by decide -- L2-2
theorem test_decode_beq : decodeTableWord 32 0xF00000E3 = some (.beq 0 0 (-256)) := by decide -- L2-3
theorem test_decode_bne : decodeTableWord 32 0xFE009CE3 = some (.bne 1 0 (-8)) := by decide -- P1
theorem test_decode_blt : decodeTableWord 32 0x0020C863 = some (.blt 1 2 16) := by decide -- L2-3
theorem test_decode_bge : decodeTableWord 32 0x0020D863 = some (.bge 1 2 16) := by decide -- L2-3
theorem test_decode_bltu : decodeTableWord 32 0x0020E863 = some (.bltu 1 2 16) := by decide -- L2-3
theorem test_decode_bgeu : decodeTableWord 32 0x0020F863 = some (.bgeu 1 2 16) := by decide -- L2-3
theorem test_decode_jal : decodeTableWord 32 0xFF9FF2EF = some (.jal 5 (-8)) := by decide -- L2-4
theorem test_decode_jalr : decodeTableWord 32 0xFFF100E7 = some (.jalr 1 2 (-1)) := by decide -- L2-4
theorem test_decode_lb : decodeTableWord 32 0xFFF00103 = some (.lb 2 0 (-1)) := by decide -- P2
theorem test_decode_lh : decodeTableWord 32 0xFFC01183 = some (.lh 3 0 (-4)) := by decide -- P2
theorem test_decode_lw : decodeTableWord 32 0x7FF0A103 = some (.lw 2 1 2047) := by decide -- L2-5
theorem test_decode_lbu : decodeTableWord 32 0xFFE04203 = some (.lbu 4 0 (-2)) := by decide -- P2
theorem test_decode_lhu : decodeTableWord 32 0xFFD05403 = some (.lhu 8 0 (-3)) := by decide -- P2
theorem test_decode_sb : decodeTableWord 32 0xFE500EA3 = some (.sb 5 0 (-3)) := by decide -- P2
theorem test_decode_sh : decodeTableWord 32 0xFE209F23 = some (.sh 2 1 (-2)) := by decide -- L2-5
theorem test_decode_sw : decodeTableWord 32 0x8000A023 = some (.sw 0 1 (-2048)) := by decide -- L2-5

/-- R82 to R97, one word of each format and family, bit by bit: `sub x31, x17, x10`, `xori x8, x24, -1365`,
`srai x8, x24, 21`, `lhu x1, 683(x30)`, `sh x10, -54(x16)`. -/
theorem test_decode_by_fields :
    decode 0b0100000_01010_10001_000_11111_0110011#32 = .ok (.sub 31 17 10) ∧
    decode 0b101010101011_11000_100_01000_0010011#32 = .ok (.xori 8 24 (-1365)) ∧
    decode 0b0100000_10101_11000_101_01000_0010011#32 = .ok (.srai 8 24 21) ∧
    decode 0b001010101011_11110_101_00001_0000011#32 = .ok (.lhu 1 30 683) ∧
    decode 0b1111110_01010_10000_001_01010_0100011#32 = .ok (.sh 10 16 (-54)) := ⟨rfl, rfl, rfl, rfl, rfl⟩

/-- The same for the scattered immediates: `bltu x3, x20, o` with offset bits 12, 10:5, 4:1, 11 in that order in the word,
`auipc x9, 0xABCDE`, `jal x15, o` with bits 20, 10:1, 11, 19:12, `jalr x7, 1(x27)`. -/
theorem test_decode_by_scattered_fields :
    decode 0b1_010011_10100_00011_110_1010_0_1100011#32 = .ok (.bltu 3 20 0b1_0_010011_1010_0) ∧
    decode 0b0_100001_10100_00011_110_0110_1_1100011#32 = .ok (.bltu 3 20 0b0_1_100001_0110_0) ∧
    decode 0b10101011110011011110_01001_0010111#32 = .ok (.auipc 9 0xABCDE) ∧
    decode 0b1_0100110011_0_11001010_01111_1101111#32 = .ok (.jal 15 0b1_11001010_0_0100110011_0) ∧
    decode 0b0_1000001100_1_00110101_01111_1101111#32 = .ok (.jal 15 0b0_00110101_1_1000001100_0) ∧
    decode 0b000000000001_11011_000_00111_1100111#32 = .ok (.jalr 7 27 1) := ⟨rfl, rfl, rfl, rfl, rfl, rfl⟩

/-- L2-7: the illegal words of the OP and OP-IMM selectors. -/
theorem test_decode_illegal_selectors :
    [0x022081B3, 0x0220C1B3, 0x802081B3, 0x602081B3, 0x4020A1B3, 0x4020C1B3, 0x8020D1B3, 0x0220D1B3, 0x0200D113, 0x6040D113,
      0x8040D113].all (fun w => decodeTableWord 32 w == none) = true := by decide

/-- L2-7: the illegal opcodes and funct3 values. -/
theorem test_decode_illegal_opcodes :
    [0x00000000, 0xFFFFFFFF, 0x0000000F, 0x0000100F, 0x00000073, 0x00100073, 0x30002573, 0x0020A02F, 0x0000B103, 0x0000E103,
      0x0000F103, 0x0020B023, 0x0020C023, 0x0020A063, 0x0020B063, 0x000090E7, 0x00000001, 0x00004501, 0x0000000B,
      0x00000007].all (fun w => decodeTableWord 32 w == none) = true := by decide

/-- The encoder on terms whose words the spec gives (L2-4, L2-5). -/
theorem test_encode_words :
    encode (.jal 5 (-8)) = 0xFF9FF2EF#32 ∧ encode (.sh 2 1 (-2)) = 0xFE209F23#32 ∧ encode (.beq 0 0 (-256)) = 0xF00000E3#32 := by
  decide

/-! ## One step of each instruction -/

theorem test_add_wraps : context 3 (run 0x002081B3 [(1, 0xFFFFFFFF), (2, 1)]) = some (0x0#32, 0x104#32) := by decide -- L1-3
theorem test_add_to_x0 : context 0 (run 0x00208033 [(1, 5), (2, 6)]) = some (0x0#32, 0x104#32) := by decide -- L2-1
theorem test_sub_below_zero :
    context 3 (run 0x402081B3 [(1, 0), (2, 1)]) = some (0xFFFFFFFF#32, 0x104#32) := by
  decide -- L2-1
theorem test_sll_low_five_bits :
    context 3 (run 0x002091B3 [(1, 3), (2, 0xFFFFFFE1)]) = some (0x6#32, 0x104#32) := by
  decide -- L2-1
theorem test_sll_ignores_funct7 : context 3 (run 0x402091B3 [(1, 1), (2, 4)]) = some (0x10#32, 0x104#32) := by decide -- L2-1
theorem test_slt_signed :
    context 3 (run 0x0020A1B3 [(1, 0x80000000), (2, 0x7FFFFFFF)]) = some (0x1#32, 0x104#32) := by
  decide -- L2-1
theorem test_sltu_unsigned :
    context 3 (run 0x0020B1B3 [(1, 0xFFFFFFFF), (2, 0)]) = some (0x0#32, 0x104#32) := by
  decide -- L2-1
theorem test_xor_same_source : context 3 (run 0x0010C1B3 [(1, 0x12345678)]) = some (0x0#32, 0x104#32) := by decide -- L2-1
theorem test_srl_by_32_is_by_0 :
    context 3 (run 0x0020D1B3 [(1, 0x80000000), (2, 32)]) = some (0x80000000#32, 0x104#32) := by
  decide -- L2-1
theorem test_sra_fills_with_sign :
    context 3 (run 0x4020D1B3 [(1, 0x80000000), (2, 31)]) = some (0xFFFFFFFF#32, 0x104#32) := by
  decide -- L2-1
theorem test_or_bits :
    context 3 (run 0x0020E1B3 [(1, 0xF0F0F0F0), (2, 0x0F0F0F0F)]) = some (0xFFFFFFFF#32, 0x104#32) := by
  decide -- L2-1
theorem test_and_x0 : context 3 (run 0x0000F1B3 [(1, 0xFFFFFFFF)]) = some (0x0#32, 0x104#32) := by decide -- L2-1
theorem test_addi_negative : context 1 (run 0x80000093 []) = some (0xFFFFF800#32, 0x104#32) := by decide -- L2-2
theorem test_addi_destination_is_source :
    context 1 (run 0xFFF08093 [(1, 0)]) = some (0xFFFFFFFF#32, 0x104#32) := by
  decide -- L2-2
theorem test_slti_signed : context 2 (run 0xFFF0A113 [(1, 0xFFFFFFFE)]) = some (0x1#32, 0x104#32) := by decide -- L2-2
theorem test_sltiu_extends_then_compares :
    context 2 (run 0xFFF0B113 [(1, 0xFFFFFFFE)]) = some (0x1#32, 0x104#32) := by
  decide -- L2-2
theorem test_xori_not : context 2 (run 0xFFF0C113 [(1, 0)]) = some (0xFFFFFFFF#32, 0x104#32) := by decide -- L2-2
theorem test_ori_negative : context 2 (run 0x8000E113 [(1, 1)]) = some (0xFFFFF801#32, 0x104#32) := by decide -- L2-2
theorem test_andi_positive : context 2 (run 0x7FF0F113 [(1, 0xFFFFFFFF)]) = some (0x7FF#32, 0x104#32) := by decide -- L2-2
theorem test_slli_ignores_high_bits :
    context 2 (run 0x40409113 [(1, 0x89ABCDEF)]) = some (0x9ABCDEF0#32, 0x104#32) := by
  decide -- L2-2
theorem test_srli_31 : context 2 (run 0x01F0D113 [(1, 0x80000000)]) = some (0x1#32, 0x104#32) := by decide -- L2-2
theorem test_srai_positive :
    context 2 (run 0x4040D113 [(1, 0x7FFFFFF0)]) = some (0x07FFFFFF#32, 0x104#32) := by
  decide -- L2-2
theorem test_lui_top : context 1 (run 0x800000B7 []) = some (0x80000000#32, 0x104#32) := by decide -- L2-2
theorem test_auipc_wraps : context 1 (runAt 0xFFFFF000 0x00001097 []) = some (0x0#32, 0xFFFFF004#32) := by decide -- L2-2
theorem test_beq_taken : context 1 (run 0x00208463 [(1, 7), (2, 7)]) = some (0x7#32, 0x108#32) := by decide -- L2-3
theorem test_beq_backward_wraps : context 1 (run 0x80000063 []) = some (0x0#32, 0xFFFFF100#32) := by decide -- L2-3
theorem test_bne_taken : context 2 (run 0x00209663 [(1, 1), (2, 2)]) = some (0x2#32, 0x10C#32) := by decide -- L2-3
theorem test_bne_not_taken : context 1 (run 0x00109663 [(1, 1)]) = some (0x1#32, 0x104#32) := by decide -- L2-3
theorem test_blt_signed : context 2 (run 0x0020C863 [(1, 0xFFFFFFFF), (2, 0)]) = some (0x0#32, 0x110#32) := by decide -- L2-3
theorem test_bge_equal : context 2 (run 0x0020D863 [(1, 3), (2, 3)]) = some (0x3#32, 0x110#32) := by decide -- L2-3
theorem test_bltu_unsigned :
    context 2 (run 0x0020E863 [(1, 0xFFFFFFFF), (2, 0)]) = some (0x0#32, 0x104#32) := by
  decide -- L2-3
theorem test_bgeu_unsigned :
    context 2 (run 0x0020F863 [(1, 0x80000000), (2, 0x7FFFFFFF)]) = some (0x7FFFFFFF#32, 0x110#32) := by
  decide -- L2-3
theorem test_jal_back : context 5 (runAt 4 0xFF9FF2EF []) = some (0x8#32, 0xFFFFFFFC#32) := by decide -- L2-4
theorem test_jal_spin : context 0 (run 0x0000006F []) = some (0x0#32, 0x100#32) := by decide -- L2-4
theorem test_jalr_destination_is_source :
    context 1 (run 0x000080E7 [(1, 0x200)]) = some (0x104#32, 0x200#32) := by
  decide -- L2-4
theorem test_jalr_odd_target_kept : context 1 (run 0x001100E7 [(2, 0x200)]) = some (0x104#32, 0x201#32) := by decide -- L2-4
theorem test_lb_sign :
    context 2 (run 0x00008103 [(1, 0x400)] [(0x400, 0x80)]) = some (0xFFFFFF80#32, 0x104#32) := by
  decide -- L2-5
theorem test_lbu_zero :
    context 2 (run 0x0000C103 [(1, 0x400)] [(0x400, 0x80)]) = some (0x80#32, 0x104#32) := by
  decide -- L2-5
theorem test_lh_wraps :
    context 2 (run 0xFFF01103 [] [(0x0, 0x80), (0x1FFF, 0x01)]) = some (0xFFFF8001#32, 0x104#32) := by
  decide -- L2-5
theorem test_lhu_odd_address :
    context 2 (run 0x0010D103 [(1, 0x400)] [(0x401, 0x34), (0x402, 0x92)]) = some (0x9234#32, 0x104#32) := by
  decide -- L2-5
theorem test_lw_little_endian :
    context 2 (run 0x7FF0A103 [(1, 0x401)] [(0xC00, 0x44), (0xC01, 0x33), (0xC02, 0x22), (0xC03, 0x11)]) = some (0x11223344#32, 0x104#32) := by
  decide -- L2-5
theorem test_lw_to_x0 : context 0 (run 0x0000A003 [(1, 0x400)] [(0x400, 0x01)]) = some (0x0#32, 0x104#32) := by decide -- L2-5

theorem test_sb_low_byte : stored 0x401 (run 0x00208023 [(1, 0x401), (2, 0xAABBCCDD)]) = some (0x104#32, [(0x401, 0xDD)], 0xDD) := by
  decide -- L2-5
theorem test_sh_wraps : stored 0 (run 0xFE201FA3 [(2, 0xAABBCCDD)]) = some (0x104#32, [(0x1FFF, 0xDD), (0, 0xCC)], 0xCC) := by
  decide -- L2-5
theorem test_sw_misaligned : stored 0x405 (run 0x0020A1A3 [(1, 0x400), (2, 0x01020304)]) =
    some (0x104#32, [(0x403, 4), (0x404, 3), (0x405, 2), (0x406, 1)], 2) := by decide -- L2-5
/-- Zeroes stored over a listed byte leave the memory's canonical form: the entry is gone. -/
theorem test_sw_zero_unlists : stored 0x800 (run 0x8000A023 [(1, 0x1000)] [(0x800, 7)]) =
    some (0x104#32, [(0x800, 0), (0x801, 0), (0x802, 0), (0x803, 0)], 0) := by decide -- L2-5

/-! ## Faults (L2-6, L2-7): the warrior's death, nothing else -/

theorem test_fault_store_partly_refused : fate (run 0x0020A023 [(1, 0x1EFE), (2, 0x11223344)] [] [⟨0x1F00, 0x100, .write⟩]) =
    some (false, 0x100#32, [], [.death 0 "" (.memoryFault 0x1F00 .write)]) := by decide
theorem test_fault_load_to_x0 : fate (run 0x00008003 [(1, 0x10)] [] [⟨0x10, 1, .read⟩]) =
    some (false, 0x100#32, [], [.death 0 "" (.memoryFault 0x10 .read)]) := by decide
theorem test_fault_illegal_word : fate (run 0 []) =
    some (false, 0x100#32, [], [.death 0 "" (.illegalOpcode 0x100 0)]) := by decide
/-- R172, R53: a fetch whose third byte is refused. -/
theorem test_fault_fetch : fate (step (machine 0x100 [] [] [⟨0x102, 1, .fetch⟩])) =
    some (false, 0x100#32, [], [.death 0 "" (.memoryFault 0x102 .fetch)]) := by decide

/-! ## Translation (L1-4, L2-8) -/

theorem test_translate_table :
    (fun (cfg : BattleConfig) => (translateAddr { cfg with segmentSize := 16 } 0x300 0x10, translateAddr { cfg with segmentSize := 16 } 0x1FF 0xFFFF,
      translateAddr { cfg with segmentSize := 0x1000 } 2 0x1FFF,
      translateAddr { cfg with segmentSize := 16, arenaSize := 0x10000 } 0x1234 0x5678)) Config.beforeConfigure =
    (0x1010, 0x1FEF, 0x1FFF, 0x79B8) := by decide
theorem test_linAddr_table :
    (fun (cfg : BattleConfig) => [(0x1000#32, 0), (0x1FFF#32, 1), (0xFFFFFFFF#32, 0), (0xFFFFFFFF#32, 1)].map fun p => linAddr cfg p.1 p.2)
      { Config.beforeConfigure with segmentSize := 0x10, rvSegment := 0x100 } = [0, 0x1000, 0x0FFF, 0x1000] := by decide

/-! ## INIT and the scheduler -/

/-- L1-7: warrior A with an unrecognised word, warrior B spinning. -/
def firstScenario : Battle :=
  { config := Config.beforeConfigure
    warriors := [{ label := "A", group := "", code := [0, 0, 0, 0], loadOffset := 0 },
      { label := "B", group := "", code := [0x6F, 0, 0, 0], loadOffset := 0x1000 }] }

/-- The machine to which it is presented. -/
def presented : State := { State.reset with listener := true, pending := some firstScenario }

/-- The state a result holds, or the reset state. -/
def stateOf : Result → State
  | .next t => t
  | _ => State.reset

theorem test_init_notifies : (stateOf (step presented)).notifications.map (fun n => (n.linear, n.value, n.phase)) =
    [(0, 0, .loading), (1, 0, .loading), (2, 0, .loading), (3, 0, .loading), (0x1000, 0x6F, .loading), (0x1001, 0, .loading),
      (0x1002, 0, .loading), (0x1003, 0, .loading)] := by decide -- L1-7
theorem test_init_events : (stateOf (step presented)).events = [.birth 0 "A", .birth 1 "B", .start] := by decide -- L1-7
theorem test_init_pcs : (stateOf (step presented)).warriors.map (fun w => (w.cpu.pc, w.alive)) = [(0#32, true), (0x1000#32, true)] := by
  decide -- R216

/-- The machine after INIT. -/
def started : State := stateOf (step presented)

/-- L1-7: the first round runs A's death, B's step, the round's end and the end of the battle. -/
theorem test_first_round_events : (match runRound started with | .next (t, more) => (t.events.drop 3, more, t.reason) | _ => ([], true, none)) =
    ([.death 0 "A" (.illegalOpcode 0 0), .roundCompleted 1, .finished .singleSurvivor], false, some .singleSurvivor) := by decide

/-- S1, S2: one warrior, or a cap of 0, ends the battle at the first boundary with no round. -/
theorem test_first_boundary_ends :
    (step { started with warriors := started.warriors.take 1, cursor := 1 } |> stateOf).reason = some .singleSurvivor ∧
    (step { started with config := { started.config with roundCap := 0 } } |> stateOf).reason = some .roundCap := by decide

/-- S5: the abort input is looked at only when the earlier conditions fail. -/
theorem test_abort_comes_last :
    { started with abortDraws := [true] }.endReason? = some .aborted ∧
    { started with abortDraws := [true], config := { started.config with roundCap := 0 } }.endReason? = some .roundCap := by decide

/-- R212: the setup errors. -/
theorem test_setup_errors :
    (stateOf (configure { firstScenario with warriors := [] } State.reset)).answer = some (.setupError .noWarriors) ∧
    (stateOf (configure { firstScenario with config := { firstScenario.config with arenaSize := 0 } } State.reset)).answer =
      some (.setupError .zeroArenaSize) ∧
    (stateOf (configure { firstScenario with config := { firstScenario.config with encodingMode := .legacy } } State.reset)).answer =
      some (.setupError .unsupportedEncodingMode) := by decide

/-- The first instruction after reset: `addi x1, x0, 2047` placed by `withFetchWord`. -/
theorem test_first_instruction_after_reset : context 1 (step (State.reset.withFetchWord 32 0x7FF00093)) = some (0x7FF#32, 4#32) := by
  decide

/-! ## Witnesses: for the hypotheses of each statement, states and operands that meet them together -/

/-- Two warriors, slot 0 open; byte 0x403 refused for reads and writes, byte 0x203 for fetches. -/
def fenced (pc x1 : Word) : State :=
  machine pc [(1, x1), (2, 0xAABBCCDD)] [(0x400, 0x7F)] [⟨0x403, 1, .read⟩, ⟨0x403, 1, .write⟩, ⟨0x203, 1, .fetch⟩]

/-- The warrior whose slot is open. -/
def owner (s : State) : Warrior := s.warriors.headD blankWarrior

/-- The effective address from x1. -/
def ea (s : State) (imm : BitVec 12) : Word := (owner s).cpu.read 1 + imm.signExtend 32

theorem fenced_open (pc x1 : Word) : (fenced pc x1).slot? = some (owner (fenced pc x1)) := rfl

theorem witness_DecodeReadsBackEncode :
    Instr.wellFormed (.bgeu 31 1 (-4096)) = true ∧ Instr.wellFormed (.jal 31 0xFFFFE) = true ∧
    Instr.wellFormed (.sw 31 1 (-2048)) = true := by decide

theorem witness_EncodeGivesBackTheDecodedWord :
    decode 0xFE009113#32 = .ok (.slli 2 1 0) ∧ decode 0x022091B3#32 = .ok (.sll 3 1 2) ∧
    decode 0x402081B3#32 = .ok (.sub 3 1 2) := ⟨rfl, rfl, rfl⟩

theorem witness_EachWordMatchesOneRowOrKills :
    (Instr.row (.sub 3 1 2) ∈ opcodeTable ∧ (Instr.row (.sub 3 1 2)).matches 0x402081B3#32 = true) ∧
    decode 0x402081B3#32 = .ok (.sub 3 1 2) ∧ ∀ r ∈ opcodeTable, r.matches 0xFFFFFFFF#32 = false :=
  ⟨⟨by decide, by decide⟩, rfl, by
    have h : (opcodeTable.all fun r => !r.matches 0xFFFFFFFF#32) = true := by decide
    simpa using h⟩

/-- IllegalWord: a live warrior that fetches the word 0. -/
theorem witness_IllegalWord :
    (fenced 0x204 0).slot? = some (owner (fenced 0x204 0)) ∧ fetch (fenced 0x204 0) (owner (fenced 0x204 0)).cpu.pc = .ok 0#32 :=
  ⟨rfl, rfl⟩

/-- Every statement about a register, immediate, branch, jump, AUIPC or LUI instruction: a live warrior's slot is open. -/
theorem witness_slot_open : (machine 0xFFFFFFFC [(1, 0x80000000), (2, 0xFFFFFFFF)]).slot? =
    some { blankWarrior with cpu := cpuAt 0xFFFFFFFC [(1, 0x80000000), (2, 0xFFFFFFFF)] } := by decide

/-- RegisterShiftsUseFiveBits and ImmediateShiftsUseShamt: selectors that are neither of the two. -/
theorem witness_shift_selector :
    (0b0000001#7 ≠ 0b0000000#7 ∧ 0b0000001#7 ≠ 0b0100000#7) ∧ (0b1111111#7 ≠ 0b0000000#7 ∧ 0b1111111#7 ≠ 0b0100000#7) := by decide

theorem witness_JumpAndLinkRegister : (0b001#3 ≠ 0b000#3) ∧ (0b111#3 ≠ 0b000#3) := by decide

theorem witness_ByteLoads :
    accessible (fenced 0 0x402).config (linAddr (fenced 0 0x402).config (ea (fenced 0 0x402) 0#12) 0) .read = true ∧
    accessible (fenced 0 0x402).config (linAddr (fenced 0 0x402).config (ea (fenced 0 0x402) 1#12) 0) .read = false := by
  decide

theorem witness_HalfwordLoads_admitted :
    Admits (fenced 0 0x402).config (ea (fenced 0 0x402) (-1)) 2 .read := by
  unfold Admits; decide
theorem witness_HalfwordLoads_first :
    RefusesFirst (fenced 0 0x402).config (ea (fenced 0 0x402) 1#12) 2 .read 0 :=
  ⟨by decide, by decide, by decide⟩
theorem witness_HalfwordLoads_last :
    RefusesFirst (fenced 0 0x402).config (ea (fenced 0 0x402) 0#12) 2 .read 1 :=
  ⟨by decide, by decide, by decide⟩

theorem witness_WordLoads_admitted :
    Admits (fenced 0 0x402).config (ea (fenced 0 0x402) 2#12) 4 .read := by
  unfold Admits; decide
theorem witness_WordLoads_first :
    RefusesFirst (fenced 0 0x402).config (ea (fenced 0 0x402) 1#12) 4 .read 0 :=
  ⟨by decide, by decide, by decide⟩
theorem witness_WordLoads_last :
    RefusesFirst (fenced 0 0x402).config (ea (fenced 0 0x402) (-2)) 4 .read 3 :=
  ⟨by decide, by decide, by decide⟩
theorem witness_WordLoads_reload :
    Memory.wf (fenced 0 0x402).mem ∧ sizeAdmitted (fenced 0 0x402).config = true ∧ 4 ≤ (fenced 0 0x402).config.arenaSize ∧
    Admits (fenced 0 0x402).config (ea (fenced 0 0x402) 2#12) 4 .write :=
  ⟨by decide, by decide, by decide, by unfold Admits; decide⟩

theorem witness_ByteStore :
    Memory.wf (fenced 0 0x402).mem ∧
    accessible (fenced 0 0x402).config (linAddr (fenced 0 0x402).config (ea (fenced 0 0x402) (0#7 ++ 0#5)) 0) .write = true ∧
    accessible (fenced 0 0x402).config (linAddr (fenced 0 0x402).config (ea (fenced 0 0x402) (0#7 ++ 1#5)) 0) .write = false := by
  decide

theorem witness_HalfwordStore_admitted :
    Admits (fenced 0 0x402).config (ea (fenced 0 0x402) (0x7F#7 ++ 0x1F#5)) 2 .write := by
  unfold Admits; decide
theorem witness_HalfwordStore_first :
    RefusesFirst (fenced 0 0x402).config (ea (fenced 0 0x402) (0#7 ++ 1#5)) 2 .write 0 :=
  ⟨by decide, by decide, by decide⟩
theorem witness_HalfwordStore_last :
    RefusesFirst (fenced 0 0x402).config (ea (fenced 0 0x402) (0#7 ++ 0#5)) 2 .write 1 :=
  ⟨by decide, by decide, by decide⟩

/-- HalfwordStore and WordStore in arenas of one and of two bytes: stored bytes coincide. -/
def tiny (size : Nat) : State :=
  { fenced 0 0x402 with mem := [], config := { Config.beforeConfigure with arenaSize := size } }
theorem witness_HalfwordStore_coincide :
    (tiny 1).slot? = some (owner (tiny 1)) ∧ Memory.wf (tiny 1).mem ∧
    Admits (tiny 1).config (ea (tiny 1) (0#7 ++ 0#5)) 2 .write ∧
    linAddr (tiny 1).config (ea (tiny 1) (0#7 ++ 0#5)) 0 = linAddr (tiny 1).config (ea (tiny 1) (0#7 ++ 0#5)) 1 :=
  ⟨rfl, by decide, by unfold Admits; decide, by decide⟩
theorem witness_WordStore_coincide :
    (tiny 2).slot? = some (owner (tiny 2)) ∧ Memory.wf (tiny 2).mem ∧
    Admits (tiny 2).config (ea (tiny 2) (0#7 ++ 0#5)) 4 .write ∧
    linAddr (tiny 2).config (ea (tiny 2) (0#7 ++ 0#5)) 0 = linAddr (tiny 2).config (ea (tiny 2) (0#7 ++ 0#5)) 2 :=
  ⟨rfl, by decide, by unfold Admits; decide, by decide⟩
/-- R56: x2 is 0xAABBCCDD, and the later byte of the halfword wins. -/
theorem test_sh_later_byte_wins : stored 0 (exec (.sh 2 1 0) (tiny 1)) = some (4#32, [(0, 0xDD), (0, 0xCC)], 0xCC) := by
  decide

theorem witness_WordStore_admitted :
    Admits (fenced 0 0x402).config (ea (fenced 0 0x402) (0#7 ++ 2#5)) 4 .write := by
  unfold Admits; decide
theorem witness_WordStore_first :
    RefusesFirst (fenced 0 0x402).config (ea (fenced 0 0x402) (0#7 ++ 1#5)) 4 .write 0 :=
  ⟨by decide, by decide, by decide⟩
theorem witness_WordStore_last :
    RefusesFirst (fenced 0 0x402).config (ea (fenced 0 0x402) (0x7F#7 ++ 0x1E#5)) 4 .write 3 :=
  ⟨by decide, by decide, by decide⟩

theorem witness_NoInstructionReachesControlState : ∃ t, exec (.sw 2 1 2) (fenced 0 0x402) = .next t := ⟨_, rfl⟩

/-- OnlyLoadsAndStoresTouchTheArena: an instruction of each kind that completes. -/
theorem witness_OnlyLoadsAndStoresTouchTheArena :
    (∃ t, exec (.add 3 1 2) (fenced 0 0x402) = .next t) ∧ (∃ t, exec (.lw 3 1 0) (fenced 0 0x402) = .next t) :=
  ⟨⟨_, rfl⟩, ⟨_, rfl⟩⟩

/-- OtherContextsCannotBeRead: the second machine has its warrior in slot 1, beside a dead one, and another round count. -/
theorem witness_OtherContextsCannotBeRead :
    let s := fenced 0 0x402
    let t : State := { s with warriors := [{ blankWarrior with alive := false }, owner s], cursor := 1, roundsCompleted := 9 }
    s.slot? = some (owner s) ∧ t.slot? = some (owner s) ∧ s.config = t.config ∧ s.mem = t.mem ∧
    (∃ s', warriorStep s = .next s') ∧ ∃ t', warriorStep t = .next t' := ⟨rfl, rfl, rfl, rfl, ⟨_, rfl⟩, ⟨_, rfl⟩⟩

theorem witness_LinearAddressesWrap :
    sizeAdmitted { Config.beforeConfigure with arenaSize := 1 } = true ∧ sizeAdmitted { Config.beforeConfigure with arenaSize := 2 ^ 32 } = true := by
  decide

theorem witness_ValuesAreLittleEndian_reads :
    (∃ v, memRead (fenced 0 0) 0x402 1 .read = .ok v) ∧ (∃ v, memRead (fenced 0 0) 0x401 2 .read = .ok v) ∧
    ∃ v, memRead (fenced 0 0) 0x1FFE 4 .fetch = .ok v := ⟨⟨_, rfl⟩, ⟨_, rfl⟩, ⟨_, rfl⟩⟩

/-- A word stored across the top of the arena and its last byte read back. -/
theorem witness_ValuesAreLittleEndian_stored :
    Memory.wf (fenced 0 0).mem ∧ sizeAdmitted (fenced 0 0).config = true ∧ 4 ≤ (fenced 0 0).config.arenaSize ∧
    ∃ t u, memWrite (fenced 0 0) 0x1FFE 4 0xAABBCCDD = .ok t ∧ memRead t (0x1FFE + BitVec.ofNat 32 3) 1 .read = .ok u :=
  ⟨by decide, by decide, by decide, _, _, rfl, rfl⟩

theorem witness_EqualReadingsEqualMemories :
    let m : Memory := [(0, 1), (0x1FFF, 0xFF)]
    Memory.wf m ∧ ∀ a, Memory.read m a = Memory.read m a := ⟨by decide, fun _ => rfl⟩

theorem witness_WarriorStep_fetch_refused :
    (fenced 0x200 0).slot? = some (owner (fenced 0x200 0)) ∧ RefusesFirst (fenced 0x200 0).config (owner (fenced 0x200 0)).cpu.pc 4 .fetch 3 ∧
    RefusesFirst (fenced 0x203 0).config (owner (fenced 0x203 0)).cpu.pc 4 .fetch 0 :=
  ⟨rfl, ⟨by decide, by decide, by decide⟩, ⟨by decide, by decide, by decide⟩⟩
/-- Memory of zeroes holds the word 0, which is illegal. -/
theorem witness_WarriorStep_illegal :
    Admits (fenced 0x204 0).config (owner (fenced 0x204 0)).cpu.pc 4 .fetch ∧ ∃ e, decode 0#32 = .error e :=
  ⟨by unfold Admits; decide, _, rfl⟩

/-- `addi x1, x0, 2047` at pc 0x100, in the memory. -/
def loaded : State := machine 0x100 [] [(0x100, 0x93), (0x102, 0xF0), (0x103, 0x7F)]

/-- WarriorStepFetchesDecodesExecutes (its last clause) and StepRunsTheDecodedInstruction. -/
theorem witness_StepRunsTheDecodedInstruction :
    loaded.schedState = .running ∧ refusal? loaded.config = none ∧ loaded.slot? = some (owner loaded) ∧
    Admits loaded.config (owner loaded).cpu.pc 4 .fetch ∧
    decode (Memory.read loaded.mem (linAddr loaded.config (owner loaded).cpu.pc 3) ++
      Memory.read loaded.mem (linAddr loaded.config (owner loaded).cpu.pc 2) ++
      Memory.read loaded.mem (linAddr loaded.config (owner loaded).cpu.pc 1) ++
      Memory.read loaded.mem (linAddr loaded.config (owner loaded).cpu.pc 0)) = .ok (.addi 1 0 2047) :=
  ⟨rfl, by decide, rfl, by unfold Admits; decide, rfl⟩

theorem witness_FaultsArePrecise :
    ∃ t u, warriorStep (fenced 0x200 0) = .next t ∧ t.warriors[(fenced 0x200 0).cursor]? = some u ∧ u.alive = false :=
  ⟨_, _, rfl, rfl, rfl⟩

theorem witness_WithFetchWordIsFetchedNext :
    Memory.wf State.reset.mem ∧ decode 0x7FF00093#32 = .ok (.addi 1 0 2047) := ⟨by decide, rfl⟩

/-- RoundGrantsSlotsInIndexOrder: a live warrior's slot, before the last and the last; a dead one's; between rounds. -/
theorem witness_RoundGrantsSlotsInIndexOrder :
    let s := loaded
    let dead : Warrior := { blankWarrior with alive := false }
    (s.schedState = .running ∧ refusal? s.config = none ∧ 0 < s.warriors.length ∧ s.slot? = some (owner s) ∧
      s.cursor + 1 < s.warriors.length) ∧
    ({ s with cursor := 1 }.slot? = some blankWarrior ∧ 1 + 1 = s.warriors.length) ∧
    ({ s with warriors := [dead, dead] }.warriors[0]? = some dead ∧ dead.alive = false) ∧
    ({ s with cursor := 2 }.cursor = s.warriors.length) := by decide

/-- BoundaryGivesTheFirstReason: its five cases, at a cap of 3. -/
theorem witness_BoundaryGivesTheFirstReason :
    let alive := fun s : State => (s.warriors.filter fun w => w.alive).length
    let s : State := { loaded with config := { Config.beforeConfigure with roundCap := 3 }, roundsCompleted := 2 }
    alive { s with warriors := [] } = 0 ∧ alive { s with warriors := [blankWarrior] } = 1 ∧ alive s = 2 ∧
    s.config.roundCap ≤ { s with roundsCompleted := 3 }.roundsCompleted ∧ s.roundsCompleted < s.config.roundCap ∧
    { s with abortDraws := [true, false] }.abortDraws.head? = some true ∧ s.abortDraws.head? ≠ some true := by decide

/-- TheBattleOnlyMovesForward, OnlyTheSlotsWarriorChanges, LogsOnlyGrow, GroupsPlayNoPart: a battle under way and its step,
mid-round. -/
theorem witness_battle_under_way :
    (∃ t, step loaded = .next t) ∧ loaded.schedState = .running ∧ loaded.phase = .running ∧
    loaded.cursor + 1 < loaded.warriors.length ∧ loaded.warriors[0]? = some (owner loaded) :=
  ⟨⟨_, rfl⟩, rfl, rfl, by decide, rfl⟩

/-- TheBattleOnlyMovesForward: a battle that has ended. -/
theorem witness_ended : ∃ t, step { loaded with schedState := .ended, reason := some .aborted } = .next t := ⟨_, rfl⟩

/-- AbortIsReadOnlyAtBoundaries: the round's last slot; and steps that run no boundary: a slot before the last, the opening of
a round, INIT. -/
theorem witness_AbortIsReadOnlyAtBoundaries :
    (∃ t, slot { loaded with cursor := 1 } = .next t) ∧
    (loaded.schedState = .running ∧ 0 < loaded.warriors.length ∧ loaded.cursor + 1 ≠ loaded.warriors.length ∧
      ∃ t, step loaded = .next t) ∧
    ({ loaded with cursor := 2 }.cursor + 1 ≠ loaded.warriors.length ∧ ∃ t, step { loaded with cursor := 2 } = .next t) ∧
    (presented.schedState = .init ∧ presented.phase = .loading ∧ ∃ t, step presented = .next t) :=
  ⟨⟨_, rfl⟩, ⟨rfl, by decide, by decide, _, rfl⟩, ⟨by decide, _, rfl⟩, rfl, rfl, _, rfl⟩

/-- DeathIsPermanent: a dead warrior and three steps of the machine, through the last slot. -/
theorem witness_DeathIsPermanent :
    let dead : Warrior := { blankWarrior with alive := false }
    let s : State := { loaded with warriors := loaded.warriors ++ [dead] }
    s.phase = .running ∧ s.warriors[2]? = some dead ∧ dead.alive = false ∧ ∃ t, Host.Core.run Sys2Proof.core 3 s = .next t :=
  ⟨rfl, rfl, rfl, _, rfl⟩

theorem witness_ListenerChangesNothing :
    SameButListener loaded { loaded with listener := false, notifications := [⟨1, 2, .loading⟩] } ∧ ∃ t, step loaded = .next t :=
  ⟨rfl, _, rfl⟩

/-- A battle under way between two rounds. -/
def betweenRounds : State := { loaded with cursor := 2 }

/-- RunRoundIsTheMachinesSteps, RunToCompletionEnds, EveryBattleEnds: the invariant between two rounds. -/
theorem witness_between_rounds : BattleInv betweenRounds ∧ betweenRounds.phase = .running ∧ betweenRounds.cursor = betweenRounds.warriors.length :=
  ⟨⟨by decide, by decide, by decide, by decide, by decide, by decide, by decide, by decide, by decide, by decide⟩, rfl, rfl⟩

/-- The same before the first round: what INIT leaves. -/
theorem witness_before_first_round : BattleInv started ∧ started.phase = .running ∧ started.cursor = started.warriors.length :=
  ⟨⟨by decide, by decide, by decide, by decide, by decide, by decide, by decide, by decide, by decide, by decide⟩, by decide, by decide⟩

/-- SetupErrorsChangeNothing: each of the three conditions, and a size that does not divide 2^32. -/
theorem witness_SetupErrorsChangeNothing :
    { firstScenario with warriors := [] }.warriors = [] ∧
    { firstScenario with config := { firstScenario.config with arenaSize := 0 } }.config.arenaSize = 0 ∧
    { firstScenario with config := { firstScenario.config with encodingMode := .legacy } }.config.encodingMode = .legacy ∧
    (firstScenario.warriors ≠ [] ∧ firstScenario.config.encodingMode = .reduced ∧ (3 : Nat) ≠ 0 ∧ 2 ^ 32 % 3 ≠ 0) := by decide

/-- StepAnswersThePresentedConfigure: a battle presented, and none. -/
theorem witness_StepAnswersThePresentedConfigure :
    (presented.schedState = .init ∧ presented.phase = .loading ∧ presented.pending = some firstScenario) ∧
    State.reset.schedState = .init ∧ State.reset.phase = .loading ∧ State.reset.pending = none := by decide

/-- InitGivesTheResetValues and InitNotifiesAndEmits; a byte that is loaded and one that is not. -/
theorem witness_InitGivesTheResetValues :
    (presented.schedState = .init ∧ presented.phase = .loading ∧ presented.pending = some firstScenario) ∧ firstScenario.warriors ≠ [] ∧ sizeAdmitted firstScenario.config = true ∧
    firstScenario.config.encodingMode = .reduced ∧ Loads firstScenario 1 0 0x1000 0x6F ∧
    (∀ k' i' v', Loads firstScenario k' i' 0x1000 v' → k' < 1 ∨ k' = 1 ∧ i' ≤ 0) ∧
    0x1FFF < firstScenario.config.arenaSize ∧ ∀ k i v, ¬ Loads firstScenario k i 0x1FFF v := by
  have h : ∀ k i a v, Loads firstScenario k i a v → i < 4 ∧ (k = 0 ∧ a = i ∨ k = 1 ∧ a = 0x1000 + i) := by
    rintro k i a v ⟨w, hw, hi, rfl⟩
    match k with
    | 0 =>
      cases hw
      have : i < 4 := (List.getElem?_eq_some_iff.mp hi).1
      refine ⟨this, .inl ⟨rfl, ?_⟩⟩
      clear hi; revert i; decide
    | 1 =>
      cases hw
      have : i < 4 := (List.getElem?_eq_some_iff.mp hi).1
      refine ⟨this, .inr ⟨rfl, ?_⟩⟩
      clear hi; revert i; decide
    | k + 2 => cases hw
  refine ⟨⟨rfl, rfl, rfl⟩, by decide, by decide, rfl, ⟨_, rfl, rfl, by decide⟩, fun k i v hl => ?_, by decide, fun k i v hl => ?_⟩
  · have := h _ _ _ _ hl; omega
  · have := h _ _ _ _ hl; omega

/-- EveryStepKeepsTheInvariant: a state in mid-round and one with a battle presented, each with its step. -/
theorem witness_EveryStepKeepsTheInvariant :
    (BattleInv loaded ∧ ∃ t, step loaded = .next t) ∧ (BattleInv presented ∧ ∃ t, step presented = .next t) :=
  ⟨⟨⟨by decide, by decide, by decide, by decide, by decide, by decide, by decide, by decide, by decide, by decide⟩, _, rfl⟩,
    ⟨by decide, by decide, by decide, by decide, by decide, by decide, by decide, by decide, by decide, by decide⟩, _, rfl⟩

/-- TheMachineNeverStops: a presented battle of an admitted size. -/
theorem witness_TheMachineNeverStops : BattleInv presented ∧ PendingAdmitted presented :=
  ⟨witness_EveryStepKeepsTheInvariant.2.1, fun b hb _ => by cases hb; decide⟩

end Sys2Proof.Tests
end

namespace Sys2Proof.Machine

/-! ## The machine's step, an equation per case (R182, R187, log 1) -/

theorem step_ended {s : State} (h : s.schedState = .ended) : step s = .next s := by
  simp [step, advance, h]

theorem step_waiting {s : State} (h : s.schedState = .init) (hp : s.phase = .loading) (hb : s.pending = none) :
    step s = .next s := by
  simp [step, advance, h, hp, hb]

theorem step_presented {s : State} {b : Battle} (h : s.schedState = .init) (hp : s.phase = .loading)
    (hb : s.pending = some b) : step s = configure b s := by
  simp [step, advance, h, hp, hb]

theorem step_firstRound {s : State} (h : s.schedState = .init) (hp : s.phase = .running) :
    step s = guarded s (.next s.firstRound) := by
  simp [step, advance, h, hp]

theorem step_slot {s : State} (h : s.schedState = .running) (hc : s.cursor < s.warriors.length) :
    step s = guarded s (onNext State.closeRound (slot s)) := by
  simp [step, advance, h, hc]

theorem step_nextRound {s : State} (h : s.schedState = .running) (hc : ¬ s.cursor < s.warriors.length) :
    step s = guarded s (.next s.beginRound.closeRound) := by
  simp [step, advance, h, hc]

/-! ## Views: functions of the machine that commute with the transitions of a battle -/

/-- `φ` maps the machine and `ψ` each warrior's record so that everything a transition of the war loop looks at is as
before, and so that `φ` commutes with every update such a transition makes. -/
structure View (φ : State → State) (ψ : Warrior → Warrior) : Prop where
  config (s : State) : (φ s).config = s.config
  mem (s : State) : (φ s).mem = s.mem
  phase (s : State) : (φ s).phase = s.phase
  schedState (s : State) : (φ s).schedState = s.schedState
  roundsCompleted (s : State) : (φ s).roundsCompleted = s.roundsCompleted
  cursor (s : State) : (φ s).cursor = s.cursor
  abortDraws (s : State) : (φ s).abortDraws = s.abortDraws
  pending (s : State) : (φ s).pending = s.pending
  warriors (s : State) : (φ s).warriors = s.warriors.map ψ
  alive (w : Warrior) : (ψ w).alive = w.alive
  cpu (w : Warrior) : (ψ w).cpu = w.cpu
  setCpu (s : State) (w : Warrior) (c : Cpu) : φ (s.setCpu w c) = (φ s).setCpu (ψ w) c
  commitByte (s : State) (l : Nat) (v : Byte) : φ (s.commitByte l v) = (φ s).commitByte l v
  takeFault (s : State) (w : Warrior) (f : WarriorFault) : φ (s.takeFault w f) = (φ s).takeFault (ψ w) f
  nextSlot (s : State) : φ s.nextSlot = (φ s).nextSlot
  beginRound (s : State) : φ s.beginRound = (φ s).beginRound
  endRound (s : State) : φ s.endRound = (φ s).endRound
  endBattle (s : State) (r : Reason) : φ (s.endBattle r) = (φ s).endBattle r
  draw (s : State) (d : List Bool) : φ { s with abortDraws := d } = { φ s with abortDraws := d }
  play (s : State) (c : SchedState) : φ { s with schedState := c } = { φ s with schedState := c }

namespace View

variable {φ : State → State} {ψ : Warrior → Warrior} (V : View φ ψ)
include V

theorem length (s : State) : (φ s).warriors.length = s.warriors.length := by
  rw [V.warriors, List.length_map]

theorem slot? (s : State) : (φ s).slot? = s.slot?.map ψ := by
  unfold State.slot?
  rw [V.cursor, V.warriors, List.getElem?_map]
  cases s.warriors[s.cursor]? with
  | none => rfl
  | some w => by_cases hw : w.alive <;> simp [V.alive, hw]

theorem commitBytes (s : State) (a v : Word) (n : Nat) : φ (s.commitBytes a v n) = (φ s).commitBytes a v n := by
  induction n with
  | zero => rfl
  | succ n ih => rw [State.commitBytes, State.commitBytes, V.commitByte, ih, V.config]

theorem apply (A : Action) (s : State) (w : Warrior) : φ (A.apply s w) = A.apply (φ s) (ψ w) := by
  cases A with
  | done a v n c => simp only [Action.apply, V.setCpu, V.commitBytes]
  | died f => exact V.takeFault s w f

/-- A slot: the same action, since it depends on the configuration, the bytes and the CPU state alone. -/
theorem slot (s : State) : slot (φ s) = onNext φ (slot s) := by
  cases h : s.slot? with
  | none =>
    have hφ : (φ s).slot? = none := by rw [V.slot?, h]; rfl
    simp [Machine.slot, h, hφ, V.nextSlot]
  | some w =>
    have hφ : (φ s).slot? = some (ψ w) := by rw [V.slot?, h]; rfl
    obtain ⟨A, hA⟩ := warriorStep_uniform s.config s.mem w.cpu
    have h1 := hA s w h rfl rfl rfl
    have h2 := hA (φ s) (ψ w) hφ (V.config s) (V.mem s) (V.cpu w)
    simp [Machine.slot, h, hφ, h1, h2, V.nextSlot, V.apply]

theorem aliveCount (s : State) : (φ s).aliveCount = s.aliveCount := by
  simp only [State.aliveCount, V.warriors, List.countP_map, Function.comp_def, V.alive]

theorem endReason? (s : State) : (φ s).endReason? = s.endReason? := by
  rw [State.endReason?, State.abortRequested, V.aliveCount, V.config, V.roundsCompleted, V.abortDraws]
  rfl

theorem boundaryCheck (s : State) : φ s.boundaryCheck = (φ s).boundaryCheck := by
  cases h : s.endReason? with
  | none =>
    rw [State.boundaryCheck_none h, State.boundaryCheck_none ((V.endReason? s).trans h), V.draw, V.abortDraws]
  | some r =>
    rw [State.boundaryCheck_some h, State.boundaryCheck_some ((V.endReason? s).trans h), V.endBattle, V.draw,
      V.abortDraws]

theorem closeRound (s : State) : φ s.closeRound = (φ s).closeRound := by
  simp only [State.closeRound, V.cursor, V.length]
  split
  · rfl
  · rw [V.boundaryCheck, V.endRound]

theorem firstRound (s : State) : φ s.firstRound = (φ s).firstRound := by
  unfold State.firstRound
  rw [← V.boundaryCheck, V.schedState]
  split
  · rfl
  all_goals rw [V.closeRound, V.beginRound, V.play]

theorem guarded (s : State) (r : Result) : guarded (φ s) (onNext φ r) = onNext φ (guarded s r) := by
  unfold Machine.guarded
  rw [V.config]
  split <;> rfl

/-- A view commutes with every step of the machine, if it does with the `configure` the step answers. -/
theorem step (s : State)
    (hconf : ∀ b, s.phase = .loading → s.pending = some b → configure b (φ s) = onNext φ (configure b s)) :
    step (φ s) = onNext φ (step s) := by
  have hsched := V.schedState s
  have hphase := V.phase s
  cases h : s.schedState with
  | ended => rw [step_ended h, step_ended (hsched.trans h), onNext_next]
  | init =>
    cases hp : s.phase with
    | loading =>
      cases hb : s.pending with
      | none =>
        rw [step_waiting h hp hb, step_waiting (hsched.trans h) (hphase.trans hp) ((V.pending s).trans hb), onNext_next]
      | some b =>
        rw [step_presented h hp hb, step_presented (hsched.trans h) (hphase.trans hp) ((V.pending s).trans hb),
          hconf b hp hb]
    | running =>
      rw [step_firstRound h hp, step_firstRound (hsched.trans h) (hphase.trans hp), ← V.guarded, onNext_next,
        V.firstRound]
  | running =>
    have hlt : (φ s).cursor < (φ s).warriors.length ↔ s.cursor < s.warriors.length := by rw [V.cursor, V.length]
    by_cases hc : s.cursor < s.warriors.length
    · rw [step_slot h hc, step_slot (hsched.trans h) (hlt.mpr hc), ← V.guarded, V.slot]
      cases Machine.slot s with
      | next t => simp only [onNext_next, V.closeRound]
      | fault r => rfl
      | refused r => rfl
    · rw [step_nextRound h hc, step_nextRound (hsched.trans h) (mt hlt.mp hc), ← V.guarded, onNext_next, V.closeRound,
        V.beginRound]

end View

/-! ## The view without the listener (R30, R58) -/

/-- The machine with no listener registered and nothing received. -/
def State.mute (s : State) : State := { s with listener := false, notifications := [] }

/-- The same but for the listener: the same once it is taken away. -/
theorem sameButListener_iff {s t : State} : SameButListener s t ↔ s.mute = t.mute := by
  cases s
  cases t
  simp [SameButListener, State.mute, eq_comm]

theorem view_mute : View State.mute id where
  config _ := rfl
  mem _ := rfl
  phase _ := rfl
  schedState _ := rfl
  roundsCompleted _ := rfl
  cursor _ := rfl
  abortDraws _ := rfl
  pending _ := rfl
  warriors s := (List.map_id s.warriors).symm
  alive _ := rfl
  cpu _ := rfl
  setCpu _ _ _ := rfl
  commitByte _ _ _ := rfl
  takeFault _ _ _ := rfl
  nextSlot _ := rfl
  beginRound _ := rfl
  endRound _ := rfl
  endBattle _ _ := rfl
  draw _ _ := rfl
  play _ _ := rfl

theorem loadCode_mute (s : State) (offset : Nat) (code : List Byte) :
    loadCode s.mute offset code = (loadCode s offset code).mute := by
  induction code generalizing s offset with
  | nil => rfl
  | cons b bs ih => exact ih (s.commitByte (translateAddr s.config s.config.rvSegment offset) b) (offset + 1)

theorem loadAll_mute (s : State) (ws : List WarriorInput) : loadAll s.mute ws = (loadAll s ws).mute := by
  induction ws generalizing s with
  | nil => rfl
  | cons w ws ih => rw [loadAll, loadCode_mute, ih, loadAll]

theorem initBattle_mute (b : Battle) (s : State) : initBattle b s.mute = (initBattle b s).mute := by
  have h : loadArena b s.mute = (loadArena b s).mute :=
    loadAll_mute { s with config := b.config, phase := .loading, mem := resetArena b.config } b.warriors
  rw [initBattle, h]
  rfl

theorem configure_mute (b : Battle) (s : State) : configure b s.mute = onNext State.mute (configure b s) := by
  unfold configure
  rw [initBattle_mute]
  split
  · rfl
  · split <;> rfl

/-- Taking the listener away commutes with every step. -/
theorem step_mute (s : State) : step s.mute = onNext State.mute (step s) :=
  view_mute.step s fun b _ _ => configure_mute b s

/-- Settles O42: the machine without a listener steps as the machine does, and two machines that are the same but for the
listener are one machine without it. -/
theorem listenerChangesNothing : Obligations.ListenerChangesNothing := by
  intro s t s' hst hs
  have hmute : onNext State.mute (step t) = .next s'.mute := by
    rw [← step_mute, ← sameButListener_iff.mp hst, step_mute, hs, onNext_next]
  cases ht : step t with
  | next t' =>
    rw [ht, onNext_next, Host.Outcome.next.injEq] at hmute
    exact ⟨t', rfl, sameButListener_iff.mpr hmute.symm⟩
  | fault r => simp [ht, onNext] at hmute
  | refused r => simp [ht, onNext] at hmute

/-! ## The view with every warrior in one group (R27, R186) -/

theorem view_regroup (g : String) : View (State.regroup · g) (fun w => { w with group := g }) where
  config _ := rfl
  mem _ := rfl
  phase _ := rfl
  schedState _ := rfl
  roundsCompleted _ := rfl
  cursor _ := rfl
  abortDraws _ := rfl
  pending _ := rfl
  warriors _ := rfl
  alive _ := rfl
  cpu _ := rfl
  setCpu _ _ _ := by simp [State.regroup, State.setCpu, State.setSlot, List.map_set]
  commitByte _ _ _ := rfl
  takeFault _ _ _ := by simp [State.regroup, State.takeFault, State.setSlot, State.emit, List.map_set]
  nextSlot _ := rfl
  beginRound _ := rfl
  endRound _ := by simp [State.regroup, State.endRound, State.emit]
  endBattle _ _ := rfl
  draw _ _ := rfl
  play _ _ := rfl

/-- Settles O41: in phase Running no `configure` is answered, and every other transition commutes with the regrouping. -/
theorem groupsPlayNoPart : Obligations.GroupsPlayNoPart := by
  intro s t g hp hs
  rw [(view_regroup g).step s fun b hl _ => absurd (hp.symm.trans hl) (by decide), hs, onNext_next]

end Sys2Proof.Machine

namespace Sys2Proof.Machine

/-! ## What an instruction and a warrior's step reach (R26, R33) -/

/-- Every instruction is a body run on the open slot's warrior. -/
theorem exec_eq_inSlot (i : Instr) (s : State) : ∃ k, exec i s = inSlot s k := by
  cases i <;> exact ⟨_, rfl⟩

/-- An instruction that answers a next state ran in an open slot. -/
theorem slot?_of_exec_next {i : Instr} {s t : State} (h : exec i s = .next t) : ∃ w, s.slot? = some w := by
  obtain ⟨k, hk⟩ := exec_eq_inSlot i s
  cases hs : s.slot? with
  | some w => exact ⟨w, rfl⟩
  | none => simp [hk, inSlot, hs] at h

/-- The record an action leaves of its warrior. -/
def Action.record (A : Action) (w : Warrior) : Warrior :=
  match A with
  | .done _ _ _ c => { w with cpu := c }
  | .died _ => { w with alive := false }

/-- The open slot holds the record after the action. -/
theorem Action.apply_slot {s : State} {w : Warrior} (h : s.slot? = some w) (A : Action) :
    (A.apply s w).warriors[s.cursor]? = some (A.record w) := by
  cases A <;> simp [Action.apply, Action.record, State.slot?_lt h]

/-- An action leaves every other record. -/
theorem Action.apply_others (A : Action) (s : State) (w : Warrior) : SameOthers s (A.apply s w) := by
  obtain ⟨v, hv, -⟩ := A.apply_warriors s w
  exact ⟨by rw [hv, List.length_set], fun k hk => by rw [hv, List.getElem?_set_ne (Ne.symm hk)]⟩

/-- The bytes after a store depend on the configuration and the bytes before it alone. -/
theorem State.commitBytes_mem_congr {s t : State} (hc : s.config = t.config) (hm : s.mem = t.mem) (a v : Word) (n : Nat) :
    (s.commitBytes a v n).mem = (t.commitBytes a v n).mem := by
  induction n with
  | zero => exact hm
  | succ n ih => rw [State.commitBytes_succ_mem, State.commitBytes_succ_mem, ih, hc]

theorem Action.apply_mem_congr (A : Action) {s t : State} (hc : s.config = t.config) (hm : s.mem = t.mem) (w : Warrior) :
    (A.apply s w).mem = (A.apply t w).mem := by
  cases A with
  | done a v n c => exact State.commitBytes_mem_congr hc hm a v n
  | died f => exact hm

/-- Settles O24: an instruction that answers has run in an open slot, and so comes to an action of its warrior. -/
theorem noInstructionReachesControlState : Obligations.NoInstructionReachesControlState := by
  intro i s t h
  obtain ⟨w, hw⟩ := slot?_of_exec_next h
  obtain ⟨A, hA⟩ := exec_runs hw i
  obtain rfl : A.apply s w = t := by simpa [hA] using h
  exact ⟨A.apply_battle s w, A.apply_others s w⟩

/-- Settles O26: both machines' warriors come to one action. -/
theorem otherContextsCannotBeRead : Obligations.OtherContextsCannotBeRead := by
  intro s t s' t' w hs ht hc hm hs' ht'
  obtain ⟨A, hA⟩ := warriorStep_uniform s.config s.mem w.cpu
  obtain rfl : A.apply s w = s' := by simpa [hA s w hs rfl rfl rfl] using hs'
  obtain rfl : A.apply t w = t' := by simpa [hA t w ht hc.symm hm.symm rfl] using ht'
  exact ⟨by rw [Action.apply_slot hs, Action.apply_slot ht], A.apply_mem_congr hc hm w⟩

/-! ## The canonical form of the memory (R28, log 5) -/

/-- The entries of a memory in canonical form are its addresses that do not read as the unlisted byte. -/
theorem Memory.mem_iff_read {m : Memory} (hm : Memory.wf m) {c : Host.Cell} :
    c ∈ m ↔ Memory.read m c.1 = c.2 ∧ c.2 ≠ Config.unlistedByte := by
  induction m with
  | nil => exact ⟨fun h => absurd h List.not_mem_nil, fun ⟨h, hne⟩ => absurd h.symm hne⟩
  | cons d m ih =>
    obtain ⟨hp, hne⟩ := hm
    obtain ⟨hlt, hp⟩ := List.pairwise_cons.mp hp
    have ih := ih ⟨hp, fun e he => hne e (by simp [he])⟩
    rw [Memory.read_cons, List.mem_cons]
    split
    · rename_i e
      have hc : c ∉ m := fun h => absurd (hlt c h) (by omega)
      have hd := hne d (by simp)
      constructor
      · rintro (rfl | h)
        · exact ⟨rfl, hd⟩
        · exact absurd h hc
      · exact fun ⟨h, _⟩ => .inl (Prod.ext e h.symm)
    · rename_i e
      rw [← ih]
      exact ⟨fun h => h.resolve_left fun h => e (congrArg Prod.fst h), .inr⟩

/-- Settles O29: the two lists have the same entries, and both are sorted by address. -/
theorem equalReadingsEqualMemories : Obligations.EqualReadingsEqualMemories := by
  intro m q hm hq h
  have : Std.Irrefl fun c d : Host.Cell => c.1 < d.1 := ⟨fun c => Nat.lt_irrefl c.1⟩
  have : Std.Antisymm fun c d : Host.Cell => c.1 < d.1 := ⟨fun _ _ hcd hdc => absurd hcd hdc.not_gt⟩
  exact hm.1.eq_of_mem_iff hq.1 fun c => by rw [Memory.mem_iff_read hm, Memory.mem_iff_read hq, h]

/-! ## The warriors' records over a step and over a run (R24, R26, R27, R180) -/

@[simp] theorem State.closeRound_warriors (s : State) : s.closeRound.warriors = s.warriors := by
  unfold State.closeRound
  split <;> simp

@[simp] theorem State.closeRound_phase (s : State) : s.closeRound.phase = s.phase := by
  unfold State.closeRound
  split <;> simp

@[simp] theorem State.firstRound_warriors (s : State) : s.firstRound.warriors = s.warriors := by
  unfold State.firstRound
  split <;> simp

@[simp] theorem State.firstRound_phase (s : State) : s.firstRound.phase = s.phase := by
  unfold State.firstRound
  split <;> simp

/-- In a battle under way the phase stays Running and at most the open slot's record is replaced, by one that differs in
the CPU state and the liveness at most. -/
theorem step_running {s t : State} (hp : s.phase = .running) (h : step s = .next t) :
    t.phase = .running ∧ (t.warriors = s.warriors ∨
      ∃ w v : Warrior, s.schedState = .running ∧ s.slot? = some w ∧ t.warriors = s.warriors.set s.cursor v ∧
        v = { w with cpu := v.cpu, alive := v.alive }) := by
  rcases step_cases h with ⟨-, rfl⟩ | ⟨-, hl, -⟩ | ⟨b, -, hl, -⟩ | ⟨-, -, -, rfl⟩ | ⟨u, hs, -, -, hu, rfl⟩ | ⟨-, -, -, rfl⟩
  · exact ⟨hp, .inl rfl⟩
  · exact absurd (hp.symm.trans hl) (by decide)
  · exact absurd (hp.symm.trans hl) (by decide)
  · exact ⟨by simp [hp], .inl (by simp)⟩
  · rcases slot_next s with ⟨w, A, hw, -, hA⟩ | ⟨-, hn⟩
    · obtain rfl : (A.apply s w).nextSlot = u := by simpa [hA] using hu
      obtain ⟨v, hv, hsame⟩ := A.apply_warriors s w
      exact ⟨by simp [(A.apply_battle s w).phase, hp], .inr ⟨w, v, hs, hw, by simp [hv], hsame⟩⟩
    · obtain rfl : s.nextSlot = u := by simpa [hn] using hu
      exact ⟨by simp [hp], .inl (by simp)⟩
  · exact ⟨by simp [hp], .inl (by simp)⟩

/-- Settles O37: the one record a step can replace is the open slot's. -/
theorem onlyTheSlotsWarriorChanges : Obligations.OnlyTheSlotsWarriorChanges := by
  intro s t k u h hp hu
  rcases (step_running hp h).2 with hw | ⟨w, v, hs, hw, ht, hsame⟩
  · exact ⟨u, by rw [hw, hu], rfl, fun hne => absurd rfl hne⟩
  · obtain ⟨hcur, halive⟩ := State.slot?_eq_some.mp hw
    by_cases hk : k = s.cursor
    · subst hk
      obtain rfl : w = u := Option.some.inj (hcur.symm.trans hu)
      exact ⟨v, by rw [ht, List.getElem?_set_self (State.slot?_lt hw)], hsame, fun _ => ⟨hs, rfl, halive⟩⟩
    · exact ⟨u, by rw [ht, List.getElem?_set_ne (Ne.symm hk), hu], rfl, fun hne => absurd rfl hne⟩

/-- A step leaves a dead warrior's record. -/
theorem step_dead {s t : State} {k : Nat} {u : Warrior} (hp : s.phase = .running) (hu : s.warriors[k]? = some u)
    (hdead : u.alive = false) (h : step s = .next t) : t.warriors[k]? = some u := by
  obtain ⟨v, hv, -, hchange⟩ := onlyTheSlotsWarriorChanges s t k u h hp hu
  by_cases hvu : v = u
  · rw [hv, hvu]
  · simp [(hchange hvu).2.2] at hdead

/-- Settles O38, by induction on the number of steps. -/
theorem deathIsPermanent : Obligations.DeathIsPermanent := by
  intro n
  induction n with
  | zero =>
    intro s t k u _ hu _ h
    cases h
    exact hu
  | succ n ih =>
    intro s t k u hp hu hdead h
    obtain ⟨s', hs', hrun⟩ := run_succ_next h
    exact ih s' t k u (step_running hp hs').1 (step_dead hp hu hdead hs') hdead hrun

end Sys2Proof.Machine

namespace Sys2Proof.Machine

/-! ## INIT: the setup check and the reset arena (R212, R214) -/

theorem setupError?_none {b : Battle} :
    setupError? b = none ↔ b.warriors ≠ [] ∧ b.config.arenaSize ≠ 0 ∧ b.config.encodingMode = .reduced := by
  unfold setupError?
  split
  · simp_all
  · split
    · simp_all
    · cases b.config.encodingMode <;> simp_all

theorem arenaSize_pos {cfg : BattleConfig} (h : sizeAdmitted cfg = true) : 0 < cfg.arenaSize := by
  simp only [sizeAdmitted, Bool.and_eq_true, decide_eq_true_eq] at h
  exact h.1

theorem refusal?_none {cfg : BattleConfig} :
    refusal? cfg = none ↔ sizeAdmitted cfg = true ∧ cfg.encodingMode = .reduced := by
  unfold refusal?
  split
  · cases cfg.encodingMode <;> simp_all
  · simp_all

/-- A battle the spec admits is answered with Ready, and INIT has run. -/
theorem configure_ready {b : Battle} (s : State) (h : setupError? b = none) (hsize : sizeAdmitted b.config = true) :
    configure b s = .next { initBattle b s with pending := none, answer := some .ready } := by
  simp [configure, h, hsize]

/-- The memory in which the listed cells inside an arena of the size are written, the first listed last. -/
def writeCells (size : Nat) : List (Nat × Byte) → Memory
  | [] => []
  | c :: cs => if c.1 < size then Memory.write (writeCells size cs) c.1 c.2 else writeCells size cs

theorem resetArena_eq (cfg : BattleConfig) : resetArena cfg = writeCells cfg.arenaSize cfg.initArena.reverse := by
  rw [resetArena, List.foldl_eq_foldr_reverse]
  induction cfg.initArena.reverse with
  | nil => rfl
  | cons c cs ih => rw [List.foldr_cons, ih, writeCells]

theorem writeCells_wf (size : Nat) (cs : List (Nat × Byte)) : Memory.wf (writeCells size cs) := by
  induction cs with
  | nil => exact Memory.wf_nil
  | cons c cs ih =>
    rw [writeCells]
    split
    · exact Memory.wf_write ih _ _
    · exact ih

theorem writeCells_within (size : Nat) (cs : List (Nat × Byte)) : Memory.within (writeCells size cs) size := by
  induction cs with
  | nil => exact fun c hc => absurd hc List.not_mem_nil
  | cons c cs ih =>
    rw [writeCells]
    split
    · exact Memory.within_write ih (by assumption) _
    · exact ih

theorem writeCells_read {size a : Nat} (ha : a < size) (cs : List (Nat × Byte)) :
    Memory.read (writeCells size cs) a = ((cs.find? fun c => c.1 == a).map Prod.snd).getD Config.unlistedByte := by
  induction cs with
  | nil => rfl
  | cons c cs ih =>
    rw [writeCells]
    by_cases e : c.1 = a
    · subst e
      simp [ha, Memory.read_write_same (writeCells_wf size cs)]
    · have hread : Memory.read (Memory.write (writeCells size cs) c.1 c.2) a = Memory.read (writeCells size cs) a :=
        Memory.read_write_other (Ne.symm e) _ _
      rw [List.find?_cons_of_neg (by simpa using e), ← ih]
      split
      · exact hread
      · rfl

/-- Every byte of the reset arena is InitArena's (R214). -/
theorem resetArena_read {cfg : BattleConfig} {a : Nat} (ha : a < cfg.arenaSize) :
    Memory.read (resetArena cfg) a = initArenaByte cfg a := by
  rw [resetArena_eq, writeCells_read ha, initArenaByte]
  cases cfg.initArena.reverse.find? fun c => c.1 == a <;> rfl

/-! ## The arena's bytes in canonical form and inside it -/

/-- The memory is in canonical form and every listed byte exists (R51, R63). -/
structure ArenaOk (s : State) : Prop where
  wf : Memory.wf s.mem
  within : Memory.within s.mem s.config.arenaSize

theorem ArenaOk.commitByte {s : State} (h : ArenaOk s) {l : Nat} (hl : l < s.config.arenaSize) (v : Byte) :
    ArenaOk (s.commitByte l v) := ⟨Memory.wf_write h.wf l v, Memory.within_write h.within hl v⟩

theorem ArenaOk.apply {s : State} (h : ArenaOk s) (h0 : 0 < s.config.arenaSize) (A : Action) (w : Warrior) :
    ArenaOk (A.apply s w) where
  wf := A.apply_wf h.wf w
  within := by
    rw [(A.apply_battle s w).config]
    exact A.apply_within h0 h.within w

theorem ArenaOk.loadCode {s : State} (h : ArenaOk s) (h0 : 0 < s.config.arenaSize) (offset : Nat) (code : List Byte) :
    ArenaOk (loadCode s offset code) := by
  induction code generalizing s offset with
  | nil => exact h
  | cons b bs ih => exact ih (h.commitByte (translateAddr_lt h0 _ _) b) h0 (offset + 1)

/-! ## Loading the code (R215) -/

/-- Loading changes the bytes and the notifications alone. -/
theorem loadCode_frame (s : State) (offset : Nat) (code : List Byte) :
    loadCode s offset code =
      { s with mem := (loadCode s offset code).mem, notifications := (loadCode s offset code).notifications } := by
  induction code generalizing s offset with
  | nil => rfl
  | cons b bs ih => exact ih (s.commitByte (translateAddr s.config s.config.rvSegment offset) b) (offset + 1)

@[simp] theorem loadCode_config (s : State) (offset : Nat) (code : List Byte) :
    (loadCode s offset code).config = s.config := by
  rw [loadCode_frame]

theorem loadAll_frame (s : State) (ws : List WarriorInput) :
    loadAll s ws = { s with mem := (loadAll s ws).mem, notifications := (loadAll s ws).notifications } := by
  induction ws generalizing s with
  | nil => rfl
  | cons w ws ih =>
    rw [loadAll, ih, loadCode_frame]

@[simp] theorem loadAll_config (s : State) (ws : List WarriorInput) : (loadAll s ws).config = s.config := by
  rw [loadAll_frame]

theorem ArenaOk.loadAll {s : State} (h : ArenaOk s) (h0 : 0 < s.config.arenaSize) (ws : List WarriorInput) :
    ArenaOk (loadAll s ws) := by
  induction ws generalizing s with
  | nil => exact h
  | cons w ws ih => exact ih (h.loadCode h0 _ _) (by rwa [loadCode_config])

/-- An address no code byte goes to reads as before. -/
theorem loadCode_read_other {s : State} {offset a : Nat} {code : List Byte}
    (h : ∀ i v, code[i]? = some v → a ≠ translateAddr s.config s.config.rvSegment (offset + i)) :
    Memory.read (loadCode s offset code).mem a = Memory.read s.mem a := by
  induction code generalizing s offset with
  | nil => rfl
  | cons b bs ih =>
    rw [loadCode, ih fun i v hv => ?_]
    · exact Memory.read_write_other (h 0 b rfl) _ _
    · rw [Nat.add_right_comm]
      exact h (i + 1) v hv

/-- A code byte that no later byte of the same code overwrites stands where it was loaded. -/
theorem loadCode_read_last {s : State} {offset i a : Nat} {v : Byte} {code : List Byte} (hm : Memory.wf s.mem)
    (hv : code[i]? = some v) (ha : a = translateAddr s.config s.config.rvSegment (offset + i))
    (hlast : ∀ i' v', code[i']? = some v' → a = translateAddr s.config s.config.rvSegment (offset + i') → i' ≤ i) :
    Memory.read (loadCode s offset code).mem a = v := by
  induction code generalizing s offset i with
  | nil => cases hv
  | cons b bs ih =>
    rw [loadCode]
    cases i with
    | zero =>
      obtain rfl : b = v := by simpa using hv
      rw [loadCode_read_other, ha]
      · exact Memory.read_write_same hm _ _
      · intro i' v' hv' e
        have := hlast (i' + 1) v' hv' (by rwa [Nat.add_right_comm] at e)
        omega
    | succ i =>
      refine ih (Memory.wf_write hm _ _) hv (by rwa [Nat.add_right_comm]) fun i' v' hv' e => ?_
      have := hlast (i' + 1) v' hv' (by rwa [Nat.add_right_comm] at e)
      omega

theorem loads_zero {cfg : BattleConfig} {w : WarriorInput} {ws : List WarriorInput} {i a : Nat} {v : Byte} :
    Loads ⟨cfg, w :: ws⟩ 0 i a v ↔
      w.code[i]? = some v ∧ a = translateAddr cfg cfg.rvSegment (w.loadOffset.toNat + i) := by
  simp [Loads]

theorem loads_succ {cfg : BattleConfig} {w : WarriorInput} {ws : List WarriorInput} {k i a : Nat} {v : Byte} :
    Loads ⟨cfg, w :: ws⟩ (k + 1) i a v ↔ Loads ⟨cfg, ws⟩ k i a v := by
  simp [Loads]

/-- An address no warrior's code goes to reads as before. -/
theorem loadAll_read_other {s : State} {ws : List WarriorInput} {a : Nat}
    (h : ∀ k i v, ¬ Loads ⟨s.config, ws⟩ k i a v) : Memory.read (loadAll s ws).mem a = Memory.read s.mem a := by
  induction ws generalizing s with
  | nil => rfl
  | cons w ws ih =>
    rw [loadAll, ih fun k i v hl => ?_]
    · exact loadCode_read_other fun i v hv e => h 0 i v (loads_zero.mpr ⟨hv, e⟩)
    · rw [loadCode_config] at hl
      exact h (k + 1) i v (loads_succ.mpr hl)

/-- Of the code bytes loaded to an address, that of the last warrior and byte stands there. -/
theorem loadAll_read_last {s : State} {ws : List WarriorInput} {k i a : Nat} {v : Byte} (hm : ArenaOk s)
    (h0 : 0 < s.config.arenaSize) (hl : Loads ⟨s.config, ws⟩ k i a v)
    (hlast : ∀ k' i' v', Loads ⟨s.config, ws⟩ k' i' a v' → k' < k ∨ k' = k ∧ i' ≤ i) :
    Memory.read (loadAll s ws).mem a = v := by
  induction ws generalizing s k with
  | nil =>
    obtain ⟨w, hw, -⟩ := hl
    cases hw
  | cons w ws ih =>
    rw [loadAll]
    cases k with
    | zero =>
      obtain ⟨hv, ha⟩ := loads_zero.mp hl
      rw [loadAll_read_other fun k' i' v' hl' => ?_]
      · refine loadCode_read_last hm.wf hv ha fun i' v' hv' e => ?_
        have := hlast 0 i' v' (loads_zero.mpr ⟨hv', e⟩)
        omega
      · rw [loadCode_config] at hl'
        have := hlast (k' + 1) i' v' (loads_succ.mpr hl')
        omega
    | succ k =>
      refine ih (k := k) (hm.loadCode h0 _ _) ?_ ?_ ?_ <;> rw [loadCode_config]
      · exact h0
      · exact loads_succ.mp hl
      · intro k' i' v' hl'
        have := hlast (k' + 1) i' v' (loads_succ.mpr hl')
        omega

/-! ## The whole INIT sequence (R41, R210) -/

/-- The machine whose arena has been reset for the battle and into which nothing is loaded yet (R211, R214). -/
def State.resetFor (s : State) (b : Battle) : State :=
  { s with config := b.config, phase := .loading, mem := resetArena b.config }

theorem loadArena_eq (b : Battle) (s : State) : loadArena b s = loadAll (s.resetFor b) b.warriors := rfl

theorem resetFor_arenaOk (s : State) (b : Battle) : ArenaOk (s.resetFor b) where
  wf := by
    rw [State.resetFor, resetArena_eq]
    exact writeCells_wf _ _
  within := by
    rw [State.resetFor, resetArena_eq]
    exact writeCells_within _ _

theorem loadArena_arenaOk {b : Battle} (h : sizeAdmitted b.config = true) (s : State) : ArenaOk (loadArena b s) :=
  (resetFor_arenaOk s b).loadAll (arenaSize_pos h) b.warriors

/-- What INIT sets, over what it keeps. -/
theorem initBattle_eq (b : Battle) (s : State) :
    initBattle b s =
      { s with
        config := b.config
        warriors := b.warriors.map WarriorInput.seed
        mem := (loadArena b s).mem
        phase := .running
        notifications := (loadArena b s).notifications
        roundsCompleted := 0
        cursor := b.warriors.length
        reason := none
        events := s.events ++ births 0 b.warriors ++ [.start] } := by
  rw [initBattle, loadArena_eq, loadAll_frame]
  rfl

/-- Register r of a seeded warrior is InitRegs' (R216). -/
theorem seed_read (wi : WarriorInput) (r : RegIdx) (h : r.toNat - 1 < 31) (hr : r ≠ 0#5) :
    wi.seed.cpu.read r = wi.initRegs[r.toNat - 1] := by
  simp [WarriorInput.seed, Cpu.read, hr]

/-- Settles O49: `configure` answers the state of `initBattle`, whose arena is the reset one with the code loaded. -/
theorem initGivesTheResetValues : Obligations.InitGivesTheResetValues := by
  intro b s hinit hne hsize hmode
  have hpos := arenaSize_pos hsize
  have hready := configure_ready s (setupError?_none.mpr ⟨hne, hpos.ne', hmode⟩) hsize
  rw [initBattle_eq] at hready
  refine ⟨_, hready, fun hp hb => (step_presented hinit hp hb).trans hready, rfl, rfl, rfl, rfl, rfl, rfl, hinit, rfl, rfl,
    rfl, List.length_map _, fun k wi hwi => ?_, fun k i a v hl hlast => ?_, fun a ha hnone => ?_⟩
  · refine ⟨wi.seed, ?_, rfl, rfl, fun r h hr => seed_read wi r h hr, rfl, rfl, rfl, rfl, rfl, rfl⟩
    rw [List.getElem?_map, hwi, Option.map_some]
  · exact loadAll_read_last (resetFor_arenaOk s b) hpos hl hlast
  · exact (loadAll_read_other hnone).trans (resetArena_read ha)

/-! ## Reset, and the configure that a step answers -/

/-- Settles O46: the values of `State.reset`. -/
theorem resetIsTheSpecsReset : Obligations.ResetIsTheSpecsReset := ⟨rfl, rfl, rfl, rfl, rfl, rfl⟩

/-- Settles O48: the two cases of `step` in INIT with the phase Loading. -/
theorem stepAnswersThePresentedConfigure : Obligations.StepAnswersThePresentedConfigure :=
  fun _ hinit hload => ⟨fun _ hb => step_presented hinit hload hb, step_waiting hinit hload⟩

end Sys2Proof.Machine

namespace Sys2Proof.Machine

/-! ## The invariant (R31, R33, R51, R182, R185, R189) -/

/-- Settles O51: the values of `State.reset`, in phase Loading and state INIT. -/
theorem invariantAtReset : Obligations.InvariantAtReset where
  memWf := State.reset_mem_wf
  memWithin _ hc := absurd hc List.not_mem_nil
  cursorLe := Nat.le_refl 0
  reasonIff := by decide
  loadingInit _ := rfl
  admitted h := absurd h (by decide)
  beforeRounds _ := ⟨rfl, rfl⟩
  belowCap h := absurd h (by decide)
  withinCap h := absurd h (by decide)
  survivors h := absurd h (by decide)

/-- What holds of a battle under way that has not ended, whether a round is open or a boundary is next. -/
structure UnderWay (s : State) : Prop where
  arena : ArenaOk s
  cursorLe : s.cursor ≤ s.warriors.length
  noReason : s.reason = none
  phase : s.phase = .running
  config : refusal? s.config = none
  nonempty : 0 < s.warriors.length
  withinCap : s.roundsCompleted ≤ s.config.roundCap

theorem UnderWay.arenaSize_pos {s : State} (h : UnderWay s) : 0 < s.config.arenaSize :=
  Machine.arenaSize_pos (refusal?_none.mp h.config).1

/-- The invariant of a battle that has started and not ended. -/
theorem BattleInv.underWay {s : State} (h : BattleInv s) (hp : s.phase = .running) (hne : s.schedState ≠ .ended)
    (hcap : s.roundsCompleted ≤ s.config.roundCap) : UnderWay s where
  arena := ⟨h.memWf, h.memWithin⟩
  cursorLe := h.cursorLe
  noReason := by
    cases hr : s.reason with
    | none => rfl
    | some r => exact absurd (h.reasonIff.mp (by simp [hr])) hne
  phase := hp
  config := (h.admitted hp).1
  nonempty := (h.admitted hp).2
  withinCap := hcap

/-- In a RUNNING battle the phase is Running. -/
theorem BattleInv.phase_running {s : State} (h : BattleInv s) (hs : s.schedState = .running) : s.phase = .running := by
  cases hp : s.phase with
  | running => rfl
  | loading => exact absurd ((h.loadingInit hp).symm.trans hs) (by decide)

/-- A battle that plays on below the cap, with two survivors if it is between rounds, meets the invariant. -/
theorem UnderWay.battleInv {s : State} (h : UnderWay s) (hs : s.schedState = .running)
    (hcap : s.roundsCompleted < s.config.roundCap) (htwo : s.cursor = s.warriors.length → 2 ≤ s.aliveCount) :
    BattleInv s where
  memWf := h.arena.wf
  memWithin := h.arena.within
  cursorLe := h.cursorLe
  reasonIff := by simp [h.noReason, hs]
  loadingInit hl := absurd (h.phase.symm.trans hl) (by decide)
  admitted _ := ⟨h.config, h.nonempty⟩
  beforeRounds hi := absurd (hs.symm.trans hi) (by decide)
  belowCap _ := hcap
  withinCap _ := hcap.le
  survivors _ := htwo

/-- A battle that ends meets the invariant. -/
theorem UnderWay.endBattle {s : State} (h : UnderWay s) (r : Reason) : BattleInv (s.endBattle r) where
  memWf := h.arena.wf
  memWithin := h.arena.within
  cursorLe := h.cursorLe
  reasonIff := by simp
  loadingInit hl := absurd (h.phase.symm.trans hl) (by decide)
  admitted _ := ⟨h.config, h.nonempty⟩
  beforeRounds hi := absurd hi (by simp)
  belowCap hr := absurd hr (by simp)
  withinCap _ := h.withinCap
  survivors hr := absurd hr (by simp)

/-- The scheduler's state, the draws and a cursor in 0..N may be anything. -/
theorem UnderWay.schedule {s : State} (h : UnderWay s) {c : Nat} (hc : c ≤ s.warriors.length) (st : SchedState)
    (draws : List Bool) : UnderWay { s with schedState := st, cursor := c, abortDraws := draws } :=
  ⟨⟨h.arena.wf, h.arena.within⟩, hc, h.noReason, h.phase, h.config, h.nonempty, h.withinCap⟩

theorem UnderWay.draw {s : State} (h : UnderWay s) (draws : List Bool) : UnderWay { s with abortDraws := draws } :=
  h.schedule h.cursorLe s.schedState draws

theorem UnderWay.beginRound {s : State} (h : UnderWay s) : UnderWay s.beginRound :=
  h.schedule (Nat.zero_le _) s.schedState s.abortDraws

theorem UnderWay.nextSlot {s : State} (h : UnderWay s) (hc : s.cursor < s.warriors.length) : UnderWay s.nextSlot :=
  h.schedule hc s.schedState s.abortDraws

/-- The boundary after a round: the battle has ended, or it goes on as R185 lets it. -/
theorem UnderWay.boundaryCheck {s : State} (h : UnderWay s) (hs : s.schedState = .running) :
    BattleInv s.boundaryCheck := by
  cases hr : s.endReason? with
  | some r =>
    rw [State.boundaryCheck_some hr]
    exact (h.draw _).endBattle r
  | none =>
    obtain ⟨htwo, hcap, -⟩ := State.endReason?_none hr
    rw [State.boundaryCheck_none hr]
    exact (h.draw _).battleInv hs hcap fun _ => htwo

/-- With a slot left in the round nothing is closed. -/
theorem State.closeRound_open {s : State} (h : s.cursor < s.warriors.length) : s.closeRound = s := if_pos h

theorem State.closeRound_last {s : State} (h : ¬ s.cursor < s.warriors.length) :
    s.closeRound = s.endRound.boundaryCheck := if_neg h

/-- The end of a round below the cap keeps a battle under way. -/
theorem UnderWay.endRound {s : State} (h : UnderWay s) (hcap : s.roundsCompleted < s.config.roundCap) :
    UnderWay s.endRound :=
  ⟨⟨h.arena.wf, h.arena.within⟩, Nat.le_refl _, h.noReason, h.phase, h.config, h.nonempty, hcap⟩

/-- After a slot of a round below the cap the invariant holds, be the slot the round's last or not. -/
theorem UnderWay.closeRound {s : State} (h : UnderWay s) (hs : s.schedState = .running)
    (hcap : s.roundsCompleted < s.config.roundCap) : BattleInv s.closeRound := by
  by_cases hc : s.cursor < s.warriors.length
  · rw [State.closeRound_open hc]
    exact h.battleInv hs hcap fun e => absurd e hc.ne
  · rw [State.closeRound_last hc]
    exact (h.endRound hcap).boundaryCheck hs

/-- The first boundary (R187): the battle ends before any round, or round 1 starts. -/
theorem UnderWay.firstRound {s : State} (h : UnderWay s) (hs : s.schedState = .init) : BattleInv s.firstRound := by
  cases hr : s.endReason? with
  | some r =>
    have hend : s.firstRound = { s with abortDraws := s.abortDraws.tail }.endBattle r := by
      simp [State.firstRound, State.boundaryCheck_some hr]
    rw [hend]
    exact (h.draw _).endBattle r
  | none =>
    have hplay : s.firstRound =
        { { s with abortDraws := s.abortDraws.tail } with schedState := .running }.beginRound.closeRound := by
      simp [State.firstRound, State.boundaryCheck_none hr, hs]
    rw [hplay]
    obtain ⟨-, hcap, -⟩ := State.endReason?_none hr
    exact (h.schedule h.cursorLe .running s.abortDraws.tail).beginRound.closeRound rfl hcap

/-- A warrior's action keeps a battle under way. -/
theorem UnderWay.apply {s : State} (h : UnderWay s) (A : Action) (w : Warrior) : UnderWay (A.apply s w) := by
  have hb := A.apply_battle s w
  have hlen := (A.apply_others s w).length
  exact
    { arena := h.arena.apply h.arenaSize_pos A w
      cursorLe := by rw [hb.cursor, hlen]; exact h.cursorLe
      noReason := hb.reason.trans h.noReason
      phase := hb.phase.trans h.phase
      config := by rw [hb.config]; exact h.config
      nonempty := by rw [hlen]; exact h.nonempty
      withinCap := by rw [hb.roundsCompleted, hb.config]; exact h.withinCap }

/-- A slot of a round, and what closes the round after the last one, keep the invariant. -/
theorem UnderWay.slot {s u : State} (h : UnderWay s) (hs : s.schedState = .running)
    (hcap : s.roundsCompleted < s.config.roundCap) (hc : s.cursor < s.warriors.length) (hu : slot s = .next u) :
    BattleInv u.closeRound := by
  rcases slot_next s with ⟨w, A, -, -, hA⟩ | ⟨-, hn⟩
  · obtain rfl : (A.apply s w).nextSlot = u := by simpa [hA] using hu
    have hb := A.apply_battle s w
    have hc' : (A.apply s w).cursor < (A.apply s w).warriors.length := by
      rwa [hb.cursor, (A.apply_others s w).length]
    refine ((h.apply A w).nextSlot hc').closeRound (hb.schedState.trans hs) ?_
    simpa [hb.roundsCompleted, hb.config] using hcap
  · obtain rfl : s.nextSlot = u := by simpa [hn] using hu
    exact (h.nextSlot hc).closeRound hs hcap

/-- The port's signals are no part of the invariant. -/
theorem BattleInv.port {s : State} (h : BattleInv s) (p : Option Battle) (a : Option ConfigureAnswer) :
    BattleInv { s with pending := p, answer := a } :=
  ⟨h.memWf, h.memWithin, h.cursorLe, h.reasonIff, h.loadingInit, h.admitted, h.beforeRounds, h.belowCap, h.withinCap,
    h.survivors⟩

/-- INIT reaches the invariant, whatever the machine held before (R210). -/
theorem initBattle_inv {b : Battle} {s : State} (hs : s.schedState = .init) (hb : setupError? b = none)
    (hsize : sizeAdmitted b.config = true) : BattleInv (initBattle b s) := by
  obtain ⟨hne, -, hmode⟩ := setupError?_none.mp hb
  have harena := loadArena_arenaOk hsize s
  have hlen : (b.warriors.map WarriorInput.seed).length = b.warriors.length := List.length_map _
  have hwithin : Memory.within (loadArena b s).mem b.config.arenaSize := by
    have h := harena.within
    rwa [loadArena_eq, loadAll_config] at h
  rw [initBattle_eq]
  exact
    { memWf := harena.wf
      memWithin := hwithin
      cursorLe := hlen.ge
      reasonIff := by simp [hs]
      loadingInit := fun hl => nomatch hl
      admitted := fun _ => ⟨refusal?_none.mpr ⟨hsize, hmode⟩, by rw [hlen]; exact List.length_pos_iff.mpr hne⟩
      beforeRounds := fun _ => ⟨rfl, hlen.symm⟩
      belowCap := fun hr => absurd (hs.symm.trans hr) (by decide)
      withinCap := fun he => absurd (hs.symm.trans he) (by decide)
      survivors := fun hr => absurd (hs.symm.trans hr) (by decide) }

/-- An answered `configure` keeps the invariant: an error changes the port alone, else INIT has run. -/
theorem configure_inv {b : Battle} {s t : State} (h : BattleInv s) (hs : s.schedState = .init)
    (ht : configure b s = .next t) : BattleInv t := by
  rcases configure_next ht with ⟨e, -, rfl⟩ | ⟨hb, hsize, rfl⟩
  · exact h.port none _
  · exact (initBattle_inv hs hb hsize).port none _

/-- Settles O52: the cases of a step, each kept by its own lemma. -/
theorem everyStepKeepsTheInvariant : Obligations.EveryStepKeepsTheInvariant := by
  intro s t h ht
  rcases step_cases ht with ⟨-, rfl⟩ | ⟨-, -, -, rfl⟩ | ⟨b, hs, -, -, hconf⟩ | ⟨hs, hp, -, rfl⟩ |
    ⟨u, hs, -, hc, hu, rfl⟩ | ⟨hs, -, -, rfl⟩
  · exact h
  · exact h
  · exact configure_inv h hs hconf
  · have hcap : s.roundsCompleted ≤ s.config.roundCap := by simp [(h.beforeRounds hs).1]
    exact (h.underWay hp (by simp [hs]) hcap).firstRound hs
  · have hcap := h.belowCap hs
    exact (h.underWay (h.phase_running hs) (by simp [hs]) hcap.le).slot hs hcap hc hu
  · have hcap := h.belowCap hs
    exact (h.underWay (h.phase_running hs) (by simp [hs]) hcap.le).beginRound.closeRound hs hcap

end Sys2Proof.Machine

namespace Sys2Proof.Machine

/-! ## Memory: what instructions leave alone (R62, R174) -/

/-- A body that answers a next state ran on the open slot's warrior. -/
theorem inSlot_next {s t : State} {k : Warrior → Result} (h : inSlot s k = .next t) :
    ∃ w, s.slot? = some w ∧ k w = .next t := by
  cases hs : s.slot? with
  | some w => exact ⟨w, rfl, inSlot_open hs k ▸ h⟩
  | none => simp [inSlot, hs] at h

/-- An instruction that only replaces its warrior's CPU state changes no byte and no log, and its warrior lives on. -/
theorem setCpu_keeps {s t : State} {c : Warrior → Cpu} (h : (inSlot s fun w => .next (s.setCpu w (c w))) = .next t) :
    SameArena s t ∧ t.events = s.events ∧ ∃ w, t.slot? = some w := by
  obtain ⟨w, hw, ht⟩ := inSlot_next h
  obtain rfl : s.setCpu w (c w) = t := by simpa using ht
  exact ⟨⟨fun _ => rfl, rfl⟩, rfl, _, State.slot?_setCpu hw _⟩

/-- A load changes no byte and notifies nothing, whether it completes or kills its warrior. -/
theorem load_keepsArena {s t : State} {n : Nat} {ext : Word → Word} {rd rs1 : RegIdx} {imm : BitVec 12}
    (h : load n ext rd rs1 imm s = .next t) : SameArena s t := by
  obtain ⟨w, hw, ht⟩ := inSlot_next h
  cases hr : memRead s (effectiveAddress w.cpu rs1 imm) n .read with
  | ok v =>
    obtain ⟨u, hu, heff⟩ := retire_effect hw rd (ext v) w.cpu.nextPc
    obtain rfl : u = t := by simpa [hr, hu] using ht
    exact heff.arena
  | error f =>
    obtain rfl : s.takeFault w f = t := by simpa [hr] using ht
    exact (takeFault_effect hw f).arena

/-- Settles O25: stores are exempt from both clauses, loads from the second, and every other instruction only replaces
its warrior's CPU state. -/
theorem onlyLoadsAndStoresTouchTheArena : Obligations.OnlyLoadsAndStoresTouchTheArena := by
  intro i s t h
  cases i with
  | sb | sh | sw => exact ⟨trivial, trivial⟩
  | lb | lh | lw | lbu | lhu => exact ⟨load_keepsArena h, trivial⟩
  | _ => exact setCpu_keeps h

/-! ## Linear addresses (R50 to R52) -/

/-- An admitted arena size divides 2^32 (R9). -/
theorem arenaSize_dvd {cfg : BattleConfig} (h : sizeAdmitted cfg = true) : cfg.arenaSize ∣ 2 ^ 32 := by
  simp only [sizeAdmitted, Bool.and_eq_true, beq_iff_eq] at h
  exact Nat.dvd_of_mod_eq_zero h.2

/-- The wrap of the Word address modulo 2^32 vanishes modulo an admitted arena size. -/
theorem linAddr_eq_mod {cfg : BattleConfig} (h : sizeAdmitted cfg = true) (a : Word) (i : Nat) :
    linAddr cfg a i = (cfg.rvSegment * cfg.segmentSize + a.toNat + i) % cfg.arenaSize := by
  have hwrap : (a + BitVec.ofNat 32 i).toNat ≡ a.toNat + i [MOD 2 ^ 32] := by
    simp [Nat.ModEq]
  rw [Nat.add_assoc]
  exact (hwrap.of_dvd (arenaSize_dvd h)).add_left _

/-- Signed and unsigned, a Word is the same modulo an admitted arena size. -/
theorem toInt_modEq_toNat {cfg : BattleConfig} (h : sizeAdmitted cfg = true) (a : Word) :
    a.toInt ≡ a.toNat [ZMOD cfg.arenaSize] := by
  have hword : a.toInt ≡ a.toNat [ZMOD (2 ^ 32 : Nat)] := by
    rw [BitVec.toInt_eq_toNat_bmod]
    exact Int.bmod_emod
  exact hword.of_dvd (Int.natCast_dvd_natCast.mpr (arenaSize_dvd h))

/-- Settles O27: the unsigned form, and the signed one by a congruence; the bound is that of any translation (R51). -/
theorem linearAddressesWrap : Obligations.LinearAddressesWrap := by
  intro cfg a i h
  refine ⟨linAddr_eq_mod h a i, ?_, linAddr_lt (arenaSize_pos h) a i⟩
  rw [linAddr_eq_mod h]
  push_cast
  exact ((toInt_modEq_toNat h a).symm.add_left _).add_right _

/-- In an admitted arena of at least `n` bytes the addresses of an access of `n` bytes are distinct. -/
theorem linAddr_injective {cfg : BattleConfig} (h : sizeAdmitted cfg = true) {a : Word} {n i j : Nat}
    (hn : n ≤ cfg.arenaSize) (hi : i < n) (hj : j < n) (e : linAddr cfg a i = linAddr cfg a j) : i = j := by
  rw [linAddr_eq_mod h, linAddr_eq_mod h] at e
  exact (Nat.ModEq.add_left_cancel' _ e).eq_of_lt_of_lt (by omega) (by omega)

/-- Byte 0 of an access at `a + i` is byte `i` of the access at `a`. -/
theorem linAddr_add (cfg : BattleConfig) (a : Word) (i : Nat) :
    linAddr cfg (a + BitVec.ofNat 32 i) 0 = linAddr cfg a i := by
  simp [linAddr]

/-! ## Little-endian values (R54) -/

/-- The value of some bytes takes no more bits than they have. -/
theorem leWord_toNat_lt (bs : List Byte) : (leWord bs).toNat < 2 ^ (8 * bs.length) := by
  induction bs with
  | nil => simp [leWord]
  | cons b bs ih =>
    have hlen : 2 ^ (8 * (b :: bs).length) = 2 ^ (8 * bs.length) * 2 ^ 8 := by
      rw [List.length_cons, Nat.mul_succ, Nat.pow_add]
    rw [leWord, BitVec.toNat_or]
    refine Nat.or_lt_two_pow ?_ ?_
    · rw [BitVec.toNat_setWidth_of_le (by decide), hlen]
      exact b.isLt.trans_le (Nat.le_mul_of_pos_left _ (Nat.two_pow_pos _))
    · rw [BitVec.toNat_shiftLeft, Nat.shiftLeft_eq, hlen]
      exact (Nat.mod_le _ _).trans_lt (by omega)

/-- A byte put below the others moves their value up by eight bits. -/
theorem leWord_cons_toNat (b : Byte) {bs : List Byte} (h : bs.length ≤ 3) :
    (leWord (b :: bs)).toNat = b.toNat + (leWord bs).toNat * 2 ^ 8 := by
  have hlt : (leWord bs).toNat < 2 ^ 24 :=
    (leWord_toNat_lt bs).trans_le (Nat.pow_le_pow_right (by decide) (by omega))
  have hfits : (leWord bs).toNat <<< 8 < 2 ^ 32 := by
    rw [Nat.shiftLeft_eq]
    omega
  rw [leWord, BitVec.toNat_or, BitVec.toNat_setWidth_of_le (by decide), BitVec.toNat_shiftLeft,
    Nat.mod_eq_of_lt hfits, Nat.lor_comm, ← Nat.shiftLeft_add_eq_or_of_lt b.isLt, Nat.shiftLeft_eq, Nat.add_comm]

/-- The value of up to four bytes is the sum of the bytes, each at its place. -/
theorem leWord_map_range_toNat (f : Nat → Byte) {n : Nat} (hn : n ≤ 4) :
    (leWord ((List.range n).map f)).toNat = ((List.range n).map fun i => (f i).toNat * 2 ^ (8 * i)).sum := by
  induction n generalizing f with
  | zero => rfl
  | succ n ih =>
    have hplace (i : Nat) : (f (i + 1)).toNat * 2 ^ (8 * (i + 1)) = (f (i + 1)).toNat * 2 ^ (8 * i) * 2 ^ 8 := by
      rw [Nat.mul_succ, Nat.pow_add, Nat.mul_assoc]
    have hrest : ((List.range n).map (f ∘ Nat.succ)).length ≤ 3 := by simpa using Nat.le_of_succ_le_succ hn
    rw [List.range_succ_eq_map, List.map_cons, List.map_map, leWord_cons_toNat _ hrest, ih _ (by omega)]
    simp [Function.comp_def, hplace, List.sum_map_mul_right]

/-- A read that answers gives the little-endian value of its bytes. -/
theorem memRead_ok {s : State} {a v : Word} {n : Nat} {kind : AccessKind} (h : memRead s a n kind = .ok v) :
    v = leWord ((List.range n).map (s.byteAt a)) := by
  rcases admits_or_refusesFirst s.config a n kind with hadm | ⟨j, hj⟩
  · simpa [memRead_admitted hadm] using h.symm
  · simp [memRead_refused hj] at h

/-- A write that answers has committed its bytes. -/
theorem memWrite_ok {s t : State} {a v : Word} {n : Nat} (h : memWrite s a n v = .ok t) : t = s.commitBytes a v n := by
  rcases admits_or_refusesFirst s.config a n .write with hadm | ⟨j, hj⟩
  · simpa [memWrite_admitted hadm] using h.symm
  · simp [memWrite_refused hj] at h

/-- A read of up to four bytes that answers gives the sum of them, each at its place. -/
theorem memRead_toNat {s : State} {a v : Word} {n : Nat} {kind : AccessKind} (hn : n ≤ 4)
    (h : memRead s a n kind = .ok v) :
    v.toNat = ((List.range n).map fun i => (Memory.read s.mem (linAddr s.config a i)).toNat * 2 ^ (8 * i)).sum := by
  rw [memRead_ok h]
  exact leWord_map_range_toNat (s.byteAt a) hn

theorem byteOf_toNat (v : Word) (i : Nat) : (byteOf v i).toNat = v.toNat / 2 ^ (8 * i) % 256 := by
  simp [byteOf, Nat.shiftRight_eq_div_pow]

/-- In an admitted arena of at least four bytes each byte of a stored word stays as it was committed. -/
theorem commitBytes_word_read {s : State} (hm : Memory.wf s.mem) (hsize : sizeAdmitted s.config = true)
    (hfour : 4 ≤ s.config.arenaSize) (a v : Word) {i : Nat} (hi : i < 4) :
    Memory.read (s.commitBytes a v 4).mem (linAddr s.config a i) = byteOf v i :=
  State.commitBytes_stored hm hi fun _ hij hj e => hij.ne' (linAddr_injective hsize hfour hj hi e)

/-- Settles O28: the sum read off the bytes, and for a stored word the one byte that is read. -/
theorem valuesAreLittleEndian : Obligations.ValuesAreLittleEndian := by
  refine ⟨fun s a v n kind hn h => memRead_toNat (by omega) h, ?_⟩
  intro s t a v u i kind hm hsize hfour hi hw hr
  obtain rfl := memWrite_ok hw
  have hu : u.toNat = (byteOf v i).toNat := by
    simpa [linAddr_add, commitBytes_word_read hm hsize hfour a v hi] using memRead_toNat (by decide) hr
  rw [hu, byteOf_toNat]

end Sys2Proof.Machine

namespace Sys2Proof.Machine

/-! ## The two logs over a step (R57, R190, log 9) -/

/-- The event log and the notification log of `t` extend those of `s`. -/
structure LogsExtend (s t : State) : Prop where
  events : s.events <+: t.events
  notifications : s.notifications <+: t.notifications

/-- An update that leaves both logs alone. -/
theorem LogsExtend.of_eq {s t : State} (he : t.events = s.events) (hn : t.notifications = s.notifications) :
    LogsExtend s t := ⟨he ▸ List.prefix_rfl, hn ▸ List.prefix_rfl⟩

theorem LogsExtend.refl (s : State) : LogsExtend s s := .of_eq rfl rfl

theorem LogsExtend.trans {s t u : State} (h : LogsExtend s t) (h' : LogsExtend t u) : LogsExtend s u :=
  ⟨h.events.trans h'.events, h.notifications.trans h'.notifications⟩

/-- An update before, that leaves both logs alone, changes nothing of it. -/
theorem LogsExtend.after {s t u : State} (h : LogsExtend t u) (he : t.events = s.events)
    (hn : t.notifications = s.notifications) : LogsExtend s u := (LogsExtend.of_eq he hn).trans h

theorem LogsExtend.emit (s : State) (e : Event) : LogsExtend s (s.emit e) :=
  ⟨List.prefix_append .., List.prefix_rfl⟩

theorem LogsExtend.commitByte (s : State) (l : Nat) (v : Byte) : LogsExtend s (s.commitByte l v) := by
  refine ⟨List.prefix_rfl, ?_⟩
  unfold State.commitByte
  split
  · exact List.prefix_append ..
  · exact List.prefix_rfl

theorem LogsExtend.commitBytes (s : State) (a v : Word) (n : Nat) : LogsExtend s (s.commitBytes a v n) := by
  induction n with
  | zero => exact .refl s
  | succ n ih => exact ih.trans (.commitByte ..)

/-- What a warrior does: a store's notifications or a death's event, or neither. -/
theorem LogsExtend.apply (A : Action) (s : State) (w : Warrior) : LogsExtend s (A.apply s w) := by
  cases A with
  | done a v n c => exact (LogsExtend.commitBytes s a v n).trans (.of_eq rfl rfl)
  | died f => exact (LogsExtend.emit (s.setSlot { w with alive := false }) _).after rfl rfl

theorem LogsExtend.slot {s u : State} (h : slot s = .next u) : LogsExtend s u := by
  rcases slot_next s with ⟨w, A, -, -, hA⟩ | ⟨-, hn⟩
  · obtain rfl : (A.apply s w).nextSlot = u := by simpa [hA] using h
    exact (LogsExtend.apply A s w).trans (.of_eq rfl rfl)
  · obtain rfl : s.nextSlot = u := by simpa [hn] using h
    exact .of_eq rfl rfl

theorem LogsExtend.endBattle (s : State) (r : Reason) : LogsExtend s (s.endBattle r) :=
  (LogsExtend.emit _ _).after rfl rfl

theorem LogsExtend.boundaryCheck (s : State) : LogsExtend s s.boundaryCheck := by
  cases hr : s.endReason? with
  | some r =>
    rw [State.boundaryCheck_some hr]
    exact (LogsExtend.endBattle _ r).after rfl rfl
  | none =>
    rw [State.boundaryCheck_none hr]
    exact .of_eq rfl rfl

theorem LogsExtend.endRound (s : State) : LogsExtend s s.endRound :=
  (LogsExtend.emit _ _).after rfl rfl

theorem LogsExtend.closeRound (s : State) : LogsExtend s s.closeRound := by
  by_cases hc : s.cursor < s.warriors.length
  · rw [State.closeRound_open hc]
    exact .refl s
  · rw [State.closeRound_last hc]
    exact (LogsExtend.endRound s).trans (.boundaryCheck _)

/-- The opening of a round, which is closed at once when it has no slot (log 18). -/
theorem LogsExtend.beginRound_closeRound (s : State) : LogsExtend s s.beginRound.closeRound :=
  (LogsExtend.closeRound s.beginRound).after rfl rfl

theorem LogsExtend.firstRound (s : State) : LogsExtend s s.firstRound := by
  unfold State.firstRound
  split
  · exact .boundaryCheck s
  all_goals
    have h := LogsExtend.beginRound_closeRound { s.boundaryCheck with schedState := .running }
    exact (LogsExtend.boundaryCheck s).trans (h.after rfl rfl)

theorem LogsExtend.loadCode (s : State) (offset : Nat) (code : List Byte) : LogsExtend s (loadCode s offset code) := by
  induction code generalizing s offset with
  | nil => exact .refl s
  | cons b bs ih => exact (LogsExtend.commitByte s ..).trans (ih ..)

theorem LogsExtend.loadAll (s : State) (ws : List WarriorInput) : LogsExtend s (loadAll s ws) := by
  induction ws generalizing s with
  | nil => exact .refl s
  | cons w ws ih => exact (LogsExtend.loadCode s ..).trans (ih _)

/-- INIT appends the births and the start, and notifies each code byte it loads. -/
theorem LogsExtend.initBattle (b : Battle) (s : State) : LogsExtend s (initBattle b s) where
  events := by
    rw [initBattle_eq, List.append_assoc]
    exact List.prefix_append ..
  notifications := (LogsExtend.loadAll (s.resetFor b) b.warriors).notifications

theorem LogsExtend.configure {b : Battle} {s t : State} (h : configure b s = .next t) : LogsExtend s t := by
  rcases configure_next h with ⟨e, -, rfl⟩ | ⟨-, -, rfl⟩
  · exact .of_eq rfl rfl
  · exact (LogsExtend.initBattle b s).trans (.of_eq rfl rfl)

/-- A step of the machine, case by case. -/
theorem LogsExtend.step {s t : State} (h : step s = .next t) : LogsExtend s t := by
  rcases step_cases h with ⟨-, rfl⟩ | ⟨-, -, -, rfl⟩ | ⟨b, -, -, -, hconf⟩ | ⟨-, -, -, rfl⟩ | ⟨u, -, -, -, hu, rfl⟩ |
    ⟨-, -, -, rfl⟩
  · exact .refl _
  · exact .refl _
  · exact .configure hconf
  · exact .firstRound s
  · exact (LogsExtend.slot hu).trans (.closeRound u)
  · exact .beginRound_closeRound s

/-- Settles O39: the two fields of `LogsExtend.step`. -/
theorem logsOnlyGrow : Obligations.LogsOnlyGrow :=
  fun _ _ h => ⟨(LogsExtend.step h).events, (LogsExtend.step h).notifications⟩

end Sys2Proof.Machine

namespace Sys2Proof

/-! ## Decoding an encoded instruction (R82 to R97) -/

/-- Settles O1: opcode, funct3 and selector of each format's encoding lead to the instruction's own arm, whose operands
are the fields encoded. -/
theorem decodeReadsBackEncode : Obligations.DecodeReadsBackEncode := by
  intro i hi
  cases i with
  | add | sub | sll | slt | sltu | xor | srl | sra | or | and => simp [encode, decode, decodeOp]
  | addi | slti | sltiu | xori | ori | andi | slli | srli | srai => simp [encode, decode, decodeOpImm]
  | lui | auipc => simp [encode, decode]
  | beq | bne | blt | bge | bltu | bgeu =>
    have heven : evenBranch _ = true := hi
    simp [encode, decode, decodeBranch, heven]
  | jal =>
    have heven : evenJump _ = true := hi
    simp [encode, decode, heven]
  | jalr => simp [encode, decode, decodeJalr]
  | lb | lh | lw | lbu | lhu => simp [encode, decode, decodeLoad]
  | sb | sh | sw => simp [encode, decode, decodeStore]

/-! ## The word of a decoded instruction (R82, R114, R128) -/

/-- Two neighbouring fields of a word are one field of it: the library's law with the offsets given, as rewriting needs
them. -/
theorem extractLsb'_adjacent (w : Word) (lo m n : Nat) :
    w.extractLsb' (lo + m) n ++ w.extractLsb' lo m = w.extractLsb' lo (n + m) :=
  BitVec.extractLsb'_append_extractLsb'_eq_extractLsb' rfl

/-- A word is the encoding of its own fields: R format, and so on for the others. -/
theorem encodeR_of_fields {w : Word} {funct7 : BitVec 7} {funct3 : BitVec 3} {opcode : BitVec 7}
    (h7 : funct7Of w = funct7) (h3 : funct3Of w = funct3) (ho : opcodeOf w = opcode) :
    encodeR funct7 funct3 opcode (rdOf w) (rs1Of w) (rs2Of w) = w := by
  subst h7 h3 ho
  unfold encodeR funct7Of rs2Of rs1Of funct3Of rdOf opcodeOf
  rw [extractLsb'_adjacent w 20 5, extractLsb'_adjacent w 15 5, extractLsb'_adjacent w 12 3,
    extractLsb'_adjacent w 7 5, extractLsb'_adjacent w 0 7]
  exact BitVec.extractLsb'_eq_self

theorem encodeI_of_fields {w : Word} {funct3 : BitVec 3} {opcode : BitVec 7} (h3 : funct3Of w = funct3)
    (ho : opcodeOf w = opcode) : encodeI funct3 opcode (rdOf w) (rs1Of w) (immIOf w) = w := by
  subst h3 ho
  unfold encodeI immIOf rs1Of funct3Of rdOf opcodeOf
  rw [extractLsb'_adjacent w 15 5, extractLsb'_adjacent w 12 3, extractLsb'_adjacent w 7 5,
    extractLsb'_adjacent w 0 7]
  exact BitVec.extractLsb'_eq_self

theorem encodeS_of_fields {w : Word} {funct3 : BitVec 3} {opcode : BitVec 7} (h3 : funct3Of w = funct3)
    (ho : opcodeOf w = opcode) : encodeS funct3 opcode (rs1Of w) (rs2Of w) (immSOf w) = w := by
  subst h3 ho
  rw [immSOf, ← encodeS_fields]
  unfold rs2Of rs1Of funct3Of opcodeOf
  rw [extractLsb'_adjacent w 20 5, extractLsb'_adjacent w 15 5, extractLsb'_adjacent w 12 3,
    extractLsb'_adjacent w 7 5, extractLsb'_adjacent w 0 7]
  exact BitVec.extractLsb'_eq_self

theorem encodeB_of_fields {w : Word} {funct3 : BitVec 3} {opcode : BitVec 7} (h3 : funct3Of w = funct3)
    (ho : opcodeOf w = opcode) : encodeB funct3 opcode (rs1Of w) (rs2Of w) (immBOf w) = w := by
  subst h3 ho
  rw [immBOf, ← encodeB_fields]
  unfold rs2Of rs1Of funct3Of opcodeOf
  rw [extractLsb'_adjacent w 25 6, extractLsb'_adjacent w 20 5, extractLsb'_adjacent w 15 5,
    extractLsb'_adjacent w 12 3, extractLsb'_adjacent w 8 4, extractLsb'_adjacent w 7 1, extractLsb'_adjacent w 0 7]
  exact BitVec.extractLsb'_eq_self

theorem encodeU_of_fields {w : Word} {opcode : BitVec 7} (ho : opcodeOf w = opcode) :
    encodeU opcode (rdOf w) (immUOf w) = w := by
  subst ho
  unfold encodeU immUOf rdOf opcodeOf
  rw [extractLsb'_adjacent w 7 5, extractLsb'_adjacent w 0 7]
  exact BitVec.extractLsb'_eq_self

theorem encodeJ_of_fields {w : Word} {opcode : BitVec 7} (ho : opcodeOf w = opcode) :
    encodeJ opcode (rdOf w) (immJOf w) = w := by
  subst ho
  rw [immJOf, ← encodeJ_fields]
  unfold rdOf opcodeOf
  rw [extractLsb'_adjacent w 21 10, extractLsb'_adjacent w 20 1, extractLsb'_adjacent w 12 8,
    extractLsb'_adjacent w 7 5, extractLsb'_adjacent w 0 7]
  exact BitVec.extractLsb'_eq_self

theorem encodeR_clear_funct7 (funct7 : BitVec 7) (funct3 : BitVec 3) (opcode : BitVec 7) (rd rs1 rs2 : RegIdx) :
    encodeR funct7 funct3 opcode rd rs1 rs2 &&& 0x01FFFFFF#32 = encodeR 0#7 funct3 opcode rd rs1 rs2 := by
  apply BitVec.eq_of_getLsbD_eq
  intro i hi
  simp only [encodeR, BitVec.getLsbD_and, BitVec.getLsbD_append]
  interval_cases i <;> simp

/-- The selector bits of SLL and SLLI are encoded as 0 (R114, R128). -/
theorem encodeR_of_fields_cleared {w : Word} {funct3 : BitVec 3} {opcode : BitVec 7} (h3 : funct3Of w = funct3)
    (ho : opcodeOf w = opcode) : encodeR 0#7 funct3 opcode (rdOf w) (rs1Of w) (rs2Of w) = w &&& 0x01FFFFFF#32 := by
  rw [← encodeR_clear_funct7 (funct7Of w), encodeR_of_fields rfl h3 ho]

/-- The bits of a word that its decoding to an instruction reads: all but the selector of SLL and SLLI (R114, R128). -/
def Instr.readBits : Instr → Word
  | .sll _ _ _ | .slli _ _ _ => 0x01FFFFFF#32
  | _ => BitVec.allOnes 32

/-- `i` is well-formed and its word is `w`, but for bits of `w` that decoding does not read. -/
structure Recodes (w : Word) (i : Instr) : Prop where
  wellFormed : i.wellFormed = true
  word : encode i = w &&& i.readBits

/-- Where decoding reads every bit the word is given back whole. -/
theorem Recodes.whole {w : Word} {i : Instr} (hwf : i.wellFormed = true) (hread : i.readBits = BitVec.allOnes 32)
    (hw : encode i = w) : Recodes w i := ⟨hwf, by rw [hw, hread, BitVec.and_allOnes]⟩

/-- A row whose selector is checked answers for the checked selector alone. -/
theorem checked_ok {c : Prop} [Decidable c] {i j : Instr} {e : DecodeError}
    (h : (if c then .ok i else .error e) = Except.ok j) : c ∧ i = j := by
  split at h
  · exact ⟨by assumption, Except.ok.inj h⟩
  · cases h

/-- The last arm of a dispatch on funct3 that names the seven others. -/
theorem funct3_eq_seven {f : BitVec 3} (h0 : f ≠ 0) (h1 : f ≠ 1) (h2 : f ≠ 2) (h3 : f ≠ 3) (h4 : f ≠ 4) (h5 : f ≠ 5)
    (h6 : f ≠ 6) : f = 7 := by bv_omega

theorem recodes_of_decodeOp {w : Word} {i : Instr} (ho : opcodeOf w = 0b0110011#7) (h : decodeOp w = .ok i) :
    Recodes w i := by
  unfold decodeOp at h
  split at h
  case h_1 h3 | h_6 h3 =>
    split at h
    case h_1 h7 | h_2 h7 =>
      cases h
      exact .whole rfl rfl (encodeR_of_fields h7 h3 ho)
    case h_3 => cases h
  case h_2 h3 =>
    cases h
    exact ⟨rfl, encodeR_of_fields_cleared h3 ho⟩
  case h_3 h3 | h_4 h3 | h_5 h3 | h_7 h3 =>
    obtain ⟨h7, rfl⟩ := checked_ok h
    exact .whole rfl rfl (encodeR_of_fields h7 h3 ho)
  case h_8 n0 n1 n2 n3 n4 n5 n6 =>
    obtain ⟨h7, rfl⟩ := checked_ok h
    exact .whole rfl rfl (encodeR_of_fields h7 (funct3_eq_seven n0 n1 n2 n3 n4 n5 n6) ho)

theorem recodes_of_decodeOpImm {w : Word} {i : Instr} (ho : opcodeOf w = 0b0010011#7) (h : decodeOpImm w = .ok i) :
    Recodes w i := by
  unfold decodeOpImm at h
  split at h
  case h_2 h3 =>
    cases h
    exact ⟨rfl, encodeR_of_fields_cleared h3 ho⟩
  case h_6 h3 =>
    split at h
    case h_1 h7 | h_2 h7 =>
      cases h
      exact .whole rfl rfl (encodeR_of_fields h7 h3 ho)
    case h_3 => cases h
  case h_1 h3 | h_3 h3 | h_4 h3 | h_5 h3 | h_7 h3 =>
    cases h
    exact .whole rfl rfl (encodeI_of_fields h3 ho)
  case h_8 n0 n1 n2 n3 n4 n5 n6 =>
    cases h
    exact .whole rfl rfl (encodeI_of_fields (funct3_eq_seven n0 n1 n2 n3 n4 n5 n6) ho)

theorem recodes_of_decodeLoad {w : Word} {i : Instr} (ho : opcodeOf w = 0b0000011#7) (h : decodeLoad w = .ok i) :
    Recodes w i := by
  unfold decodeLoad at h
  split at h
  case h_1 h3 | h_2 h3 | h_3 h3 | h_4 h3 | h_5 h3 =>
    cases h
    exact .whole rfl rfl (encodeI_of_fields h3 ho)
  case h_6 => cases h

theorem recodes_of_decodeStore {w : Word} {i : Instr} (ho : opcodeOf w = 0b0100011#7) (h : decodeStore w = .ok i) :
    Recodes w i := by
  unfold decodeStore at h
  split at h
  case h_1 h3 | h_2 h3 | h_3 h3 =>
    cases h
    exact .whole rfl rfl (encodeS_of_fields h3 ho)
  case h_4 => cases h

theorem recodes_of_decodeBranch {w : Word} {i : Instr} (ho : opcodeOf w = 0b1100011#7) (h : decodeBranch w = .ok i) :
    Recodes w i := by
  unfold decodeBranch at h
  split at h
  case h_1 h3 | h_2 h3 | h_3 h3 | h_4 h3 | h_5 h3 | h_6 h3 =>
    cases h
    exact .whole (evenBranch_fields ..) rfl (encodeB_of_fields h3 ho)
  case h_7 => cases h

/-- What decodes is one of the encodings, dispatched on the nine opcodes (R91). -/
theorem recodes_of_decode {w : Word} {i : Instr} (h : decode w = .ok i) : Recodes w i := by
  unfold decode at h
  split at h
  case h_1 ho => exact recodes_of_decodeOp ho h
  case h_2 ho => exact recodes_of_decodeOpImm ho h
  case h_3 ho | h_4 ho =>
    cases h
    exact .whole rfl rfl (encodeU_of_fields ho)
  case h_5 ho => exact recodes_of_decodeBranch ho h
  case h_6 ho =>
    cases h
    exact .whole (evenJump_fields ..) rfl (encodeJ_of_fields ho)
  case h_7 ho =>
    obtain ⟨h3, rfl⟩ := checked_ok h
    exact .whole rfl rfl (encodeI_of_fields h3 ho)
  case h_8 ho => exact recodes_of_decodeLoad ho h
  case h_9 ho => exact recodes_of_decodeStore ho h
  case h_10 => cases h

/-- Settles O2: a decoded instruction's encoding is the word at the bits that decoding read. -/
theorem encodeGivesBackTheDecodedWord : Obligations.EncodeGivesBackTheDecodedWord := by
  intro w i h
  obtain ⟨hwf, hword⟩ := recodes_of_decode h
  refine ⟨hwf, hword.trans ?_⟩
  cases i with
  | sll | slli => rfl
  | _ => exact BitVec.and_allOnes

/-! ## The rows of the opcode table (R98, R99) -/

theorem Instr.row_mem (i : Instr) : i.row ∈ opcodeTable := by
  cases i <;> exact List.mem_of_elem_eq_true rfl

theorem exists_instr_of_row {r : Row} (h : r ∈ opcodeTable) : ∃ i : Instr, i.row = r := by
  obtain ⟨i, -, hi⟩ := List.mem_map.mp h
  exact ⟨i, hi⟩

/-- A field that the mask fixes is the match's. -/
theorem field_of_matches {code mask w : Word} (h : Row.matches (code, mask) w = true) {lo n : Nat}
    (hmask : mask.extractLsb' lo n = BitVec.allOnes n) : w.extractLsb' lo n = code.extractLsb' lo n := by
  have hw : w &&& mask = code := eq_of_beq h
  rw [← hw, BitVec.extractLsb'_and, hmask, BitVec.and_allOnes]

/-- A word of a row decodes, to an instruction of that row: the row fixes the fields the dispatch looks at. -/
theorem decode_of_matches {i : Instr} {w : Word} (h : i.row.matches w = true) :
    ∃ j, decode w = .ok j ∧ j.row = i.row := by
  cases i with
  | lui | auipc | jal =>
    have ho : opcodeOf w = _ := field_of_matches h (by decide)
    simp [decode, ho]
    rfl
  | add | sub | slt | sltu | xor | srl | sra | or | and | srli | srai =>
    have ho : opcodeOf w = _ := field_of_matches h (by decide)
    have h3 : funct3Of w = _ := field_of_matches h (by decide)
    have h7 : funct7Of w = _ := field_of_matches h (by decide)
    simp [decode, ho, decodeOp, decodeOpImm, h3, h7]
    rfl
  | _ =>
    have ho : opcodeOf w = _ := field_of_matches h (by decide)
    have h3 : funct3Of w = _ := field_of_matches h (by decide)
    simp [decode, ho, decodeOp, decodeOpImm, decodeBranch, decodeJalr, decodeLoad, decodeStore, h3]
    rfl

theorem row_matches_encode (i : Instr) : i.row.matches (encode i) = true := by
  cases i with
  | add => exact Laws.EncodesRow.add ..
  | sub => exact Laws.EncodesRow.sub ..
  | sll => exact Laws.EncodesRow.sll ..
  | slt => exact Laws.EncodesRow.slt ..
  | sltu => exact Laws.EncodesRow.sltu ..
  | xor => exact Laws.EncodesRow.xor ..
  | srl => exact Laws.EncodesRow.srl ..
  | sra => exact Laws.EncodesRow.sra ..
  | or => exact Laws.EncodesRow.or ..
  | and => exact Laws.EncodesRow.and ..
  | addi => exact Laws.EncodesRow.addi ..
  | slti => exact Laws.EncodesRow.slti ..
  | sltiu => exact Laws.EncodesRow.sltiu ..
  | xori => exact Laws.EncodesRow.xori ..
  | ori => exact Laws.EncodesRow.ori ..
  | andi => exact Laws.EncodesRow.andi ..
  | slli => exact Laws.EncodesRow.slli ..
  | srli => exact Laws.EncodesRow.srli ..
  | srai => exact Laws.EncodesRow.srai ..
  | lui => exact Laws.EncodesRow.lui ..
  | auipc => exact Laws.EncodesRow.auipc ..
  | beq => exact Laws.EncodesRow.beq ..
  | bne => exact Laws.EncodesRow.bne ..
  | blt => exact Laws.EncodesRow.blt ..
  | bge => exact Laws.EncodesRow.bge ..
  | bltu => exact Laws.EncodesRow.bltu ..
  | bgeu => exact Laws.EncodesRow.bgeu ..
  | jal => exact Laws.EncodesRow.jal ..
  | jalr => exact Laws.EncodesRow.jalr ..
  | lb => exact Laws.EncodesRow.lb ..
  | lh => exact Laws.EncodesRow.lh ..
  | lw => exact Laws.EncodesRow.lw ..
  | lbu => exact Laws.EncodesRow.lbu ..
  | lhu => exact Laws.EncodesRow.lhu ..
  | sb => exact Laws.EncodesRow.sb ..
  | sh => exact Laws.EncodesRow.sh ..
  | sw => exact Laws.EncodesRow.sw ..

/-- The mask of a row fixes no bit that decoding does not read. -/
theorem Instr.readBits_and_mask (i : Instr) : i.readBits &&& i.row.2 = i.row.2 := by
  cases i with
  | sll | slli => exact (by decide : 0x01FFFFFF#32 &&& 0x0000707F#32 = 0x0000707F#32)
  | _ => exact BitVec.allOnes_and

/-- A word that decodes to `i` is one of the row of `i`, as the encoding of `i` is. -/
theorem Recodes.row_matches {w : Word} {i : Instr} (h : Recodes w i) : i.row.matches w = true := by
  have hi : encode i &&& i.row.2 = i.row.1 := eq_of_beq (row_matches_encode i)
  rw [h.word, BitVec.and_assoc, i.readBits_and_mask] at hi
  exact beq_iff_eq.mpr hi

/-- Settles O3: a word of a row decodes to an instruction of that row, so it has one row only; and what decodes is a word
of its instruction's row. -/
theorem eachWordMatchesOneRowOrKills : Obligations.EachWordMatchesOneRowOrKills := by
  intro w
  have hdecodes {r : Row} (hr : r ∈ opcodeTable) (h : r.matches w = true) : ∃ i, decode w = .ok i ∧ i.row = r := by
    obtain ⟨i, rfl⟩ := exists_instr_of_row hr
    exact decode_of_matches h
  have hrow (i : Instr) (h : decode w = .ok i) : i.row ∈ opcodeTable ∧ i.row.matches w = true :=
    ⟨i.row_mem, (recodes_of_decode h).row_matches⟩
  refine ⟨fun r hr q hq hrw hqw => ?_, ⟨fun ⟨i, h⟩ => ⟨i.row, hrow i h⟩, fun ⟨r, hr, h⟩ => ?_⟩, hrow, fun h => ?_⟩
  · obtain ⟨i, hi, rfl⟩ := hdecodes hr hrw
    obtain ⟨j, hj, rfl⟩ := hdecodes hq hqw
    rw [Except.ok.inj (hi.symm.trans hj)]
  · obtain ⟨i, hi, -⟩ := hdecodes hr h
    exact ⟨i, hi⟩
  · cases hd : decode w with
    | ok i =>
      obtain ⟨hr, hm⟩ := hrow i hd
      simp [h _ hr] at hm
    | error e => exact Machine.illegalWord_of_rejected hd

/-! ## Words of the spec's vectors -/

/-- Settles O5: the decoder run on each word. -/
theorem specWordsDecodeAsTheSpecSays : Obligations.SpecWordsDecodeAsTheSpecSays := by
  refine ⟨rfl, rfl, rfl, rfl, rfl, rfl, rfl, rfl, rfl, rfl, ?_⟩
  simp only [List.forall_mem_cons, List.not_mem_nil, false_imp_iff, implies_true, and_true]
  exact ⟨⟨_, rfl⟩, ⟨_, rfl⟩, ⟨_, rfl⟩, ⟨_, rfl⟩, ⟨_, rfl⟩, ⟨_, rfl⟩, ⟨_, rfl⟩, ⟨_, rfl⟩, ⟨_, rfl⟩, ⟨_, rfl⟩⟩

end Sys2Proof

namespace Sys2Proof.Machine

/-! ## Immediates as sums of the word's bits (R83 to R87) -/

/-- The `n` bits of a word from bit `lo` up, as a number: the terms of the sums of R83 to R87. -/
def bitField (w : Word) (lo n : Nat) : Nat := w.toNat / 2 ^ lo % 2 ^ n

theorem bitField_lt (w : Word) (lo n : Nat) : bitField w lo n < 2 ^ n := Nat.mod_lt _ (Nat.two_pow_pos n)

theorem toNat_extractLsb' (w : Word) (lo n : Nat) : (w.extractLsb' lo n).toNat = bitField w lo n := by
  rw [BitVec.extractLsb'_toNat, Nat.shiftRight_eq_div_pow, bitField]

/-- A single bit read as a signed number: the sign bit counts negative. -/
theorem toInt_signBit (b : BitVec 1) : b.toInt = -(b.toNat : Int) := by
  rw [BitVec.toInt_eq_toNat_cond]
  omega

/-- Bits put below a number that has a sign bit. -/
theorem toInt_append_of_pos {n m : Nat} (hn : 0 < n) (x : BitVec n) (y : BitVec m) :
    (x ++ y).toInt = 2 ^ m * x.toInt + y.toNat := by
  rw [BitVec.toInt_append, if_neg (by simpa using hn.ne')]

theorem simm12_immIOf_toInt (w : Word) :
    (simm12 (immIOf w)).toInt = bitField w 20 11 - 2048 * bitField w 31 1 := by
  have hsign : w.extractLsb' 31 1 ++ w.extractLsb' 20 11 = immIOf w := extractLsb'_adjacent w 20 11 1
  rw [simm12, BitVec.toInt_signExtend_of_le (by decide), ← hsign, toInt_append_of_pos (by decide), toInt_signBit]
  simp only [toNat_extractLsb']
  omega

theorem simm12_immSOf_toInt (w : Word) :
    (simm12 (immSOf w)).toInt = 32 * bitField w 25 6 + bitField w 7 5 - 2048 * bitField w 31 1 := by
  have hsign : w.extractLsb' 31 1 ++ w.extractLsb' 25 6 = w.extractLsb' 25 7 := extractLsb'_adjacent w 25 6 1
  rw [simm12, BitVec.toInt_signExtend_of_le (by decide), immSOf, ← hsign, toInt_append_of_pos (by decide),
    toInt_append_of_pos (by decide), toInt_signBit]
  simp only [toNat_extractLsb']
  omega

theorem branchOffset_immBOf_toInt (w : Word) :
    (branchOffset (immBOf w)).toInt =
      2048 * bitField w 7 1 + 32 * bitField w 25 6 + 2 * bitField w 8 4 - 4096 * bitField w 31 1 := by
  rw [branchOffset, BitVec.toInt_signExtend_of_le (by decide), immBOf, toInt_append_of_pos (by decide),
    toInt_append_of_pos (by decide), toInt_append_of_pos (by decide), toInt_append_of_pos (by decide), toInt_signBit]
  simp only [toNat_extractLsb', BitVec.toNat_zero]
  omega

theorem upperImm_immUOf_toNat (w : Word) : (upperImm (immUOf w)).toNat = 4096 * bitField w 12 20 := by
  rw [upperImm, immUOf, BitVec.toNat_append, toNat_extractLsb', BitVec.toNat_zero, Nat.or_zero, Nat.shiftLeft_eq]
  omega

theorem jumpOffset_immJOf_toInt (w : Word) :
    (jumpOffset (immJOf w)).toInt =
      4096 * bitField w 12 8 + 2048 * bitField w 20 1 + 2 * bitField w 21 10 - 1048576 * bitField w 31 1 := by
  rw [jumpOffset, BitVec.toInt_signExtend_of_le (by decide), immJOf, toInt_append_of_pos (by decide),
    toInt_append_of_pos (by decide), toInt_append_of_pos (by decide), toInt_append_of_pos (by decide), toInt_signBit]
  simp only [toNat_extractLsb', BitVec.toNat_zero]
  omega

/-- Settles O4: each immediate is its sign bit and the fields below it; the ranges follow from those of the fields. -/
theorem immediatesAreTheSpecsSums : Obligations.ImmediatesAreTheSpecsSums := by
  intro w bits
  have hsign := bitField_lt w 31 1
  have hI := bitField_lt w 20 11
  have hS5 := bitField_lt w 25 6
  have hS0 := bitField_lt w 7 5
  have hB11 := bitField_lt w 7 1
  have hB1 := bitField_lt w 8 4
  have hJ12 := bitField_lt w 12 8
  have hJ11 := bitField_lt w 20 1
  have hJ1 := bitField_lt w 21 10
  rw [simm12_immIOf_toInt, simm12_immSOf_toInt, branchOffset_immBOf_toInt, upperImm_immUOf_toNat,
    jumpOffset_immJOf_toInt]
  refine ⟨rfl, rfl, rfl, by push_cast; rfl, rfl, ?_⟩
  omega

end Sys2Proof.Machine

namespace Sys2Proof.Machine

/-! ## A word's bytes, back to the word (R54, R80) -/

/-- The little-endian value of a word's bytes is the word. -/
theorem leWord_leBytes (v : Word) : leWord (leBytes v 4) = v := (leWord_four ..).trans (byteOf_four v)

theorem tableWord_toNat (v : Word) : tableWord 32 v.toNat = v := by
  rw [tableWord, Nat.mod_eq_of_lt v.isLt, BitVec.ofNat_toNat, BitVec.setWidth_eq]

/-- Four bytes decode as the word they hold. -/
theorem decodeTableWord_eq_some {v : Word} {i : Instr} (h : decode v = .ok i) :
    decodeTableWord 32 v.toNat = some i := by
  have hb : decode (leWord [byteOf v 0, byteOf v 1, byteOf v 2, byteOf v 3]) = .ok i := (leWord_leBytes v).symm ▸ h
  have hbytes : leBytes v 4 = [byteOf v 0, byteOf v 1, byteOf v 2, byteOf v 3] := rfl
  simp only [decodeTableWord, tableWord_toNat, hbytes, decodeBytes, hb]

/-! ## A step with a slot open (R171, R181, log 1) -/

theorem warriorStep_of_fetch {s : State} {w : Warrior} {v : Word} {i : Instr} (hw : s.slot? = some w)
    (hf : fetch s w.cpu.pc = .ok v) (hd : decode v = .ok i) : warriorStep s = exec i s := by
  simp only [warriorStep, inSlot_open hw, hf, hd]

/-- With a slot open a step is the warrior's step, the cursor moved on and the round closed. -/
theorem step_open {s : State} {w : Warrior} (hs : s.schedState = .running) (hr : refusal? s.config = none)
    (hw : s.slot? = some w) : step s = onNext (fun t => t.nextSlot.closeRound) (warriorStep s) := by
  rw [step_slot hs (State.slot?_lt hw)]
  simp only [guarded, hr, slot, hw]
  cases warriorStep s <;> rfl

/-! ## The host's word interface (log 2, log 20) -/

/-- A battle is under way with a slot open, and the bytes are as before. -/
theorem State.openSlot_spec (s : State) :
    s.openSlot.schedState = .running ∧ s.openSlot.mem = s.mem ∧ ∃ w, s.openSlot.slot? = some w := by
  unfold State.openSlot
  dsimp only
  split
  case h_1 w hw => exact ⟨rfl, rfl, w, hw⟩
  case h_2 =>
    split
    case h_1 k hk =>
      obtain ⟨hlt, halive, -⟩ := List.findIdx?_eq_some_iff_getElem.mp hk
      exact ⟨rfl, rfl, _, State.slot?_eq_some.mpr ⟨List.getElem?_eq_getElem hlt, halive⟩⟩
    case h_2 => exact ⟨rfl, rfl, blankWarrior, rfl⟩

/-- A battle with this configuration is not refused, and in its arena an instruction word can be placed and fetched at
`pc`. -/
structure Fetchable (cfg : BattleConfig) (pc : Word) : Prop where
  admitted : refusal? cfg = none
  roomy : 4 ≤ cfg.arenaSize
  fetches : Admits cfg pc 4 .fetch

/-- Without its refusals of fetches a configuration refuses no fetch. -/
theorem admits_fetch_of_filter (cfg : BattleConfig) (pc : Word) (n : Nat) :
    Admits { cfg with refused := cfg.refused.filter fun r => r.kind != .fetch } pc n .fetch := by
  intro i _
  have hkept : ∀ r ∈ cfg.refused.filter (fun r => r.kind != .fetch), r.kind ≠ .fetch := fun r hr => by
    simpa using (List.mem_filter.mp hr).2
  simp only [accessible, Bool.not_eq_true', List.any_eq_false, Bool.and_eq_true, beq_iff_eq]
  exact fun r hr hk => hkept r hr hk.1

theorem fetchableConfig_fetchable (cfg : BattleConfig) (pc : Word) : Fetchable (fetchableConfig cfg pc) pc := by
  unfold fetchableConfig
  extract_lets base
  have hbase : refusal? base = none ∧ 4 ≤ base.arenaSize := by
    unfold base
    split
    case isTrue h => simpa using h
    case isFalse => decide
  split
  case isTrue h => exact ⟨hbase.1, hbase.2, firstRefused_none.mp h⟩
  case isFalse => exact ⟨hbase.1, hbase.2, admits_fetch_of_filter base pc 4⟩

/-- Placing a word leaves the bytes a store of it would. -/
theorem State.placeWord_mem (s : State) (pc v : Word) : (s.placeWord pc v).mem = (s.commitBytes pc v 4).mem := rfl

theorem fetch_placeWord {s : State} {pc : Word} (hm : Memory.wf s.mem) (h : Fetchable s.config pc) (v : Word) :
    fetch (s.placeWord pc v) pc = .ok v := by
  have hsize : sizeAdmitted s.config = true := (refusal?_none.mp h.admitted).1
  have hbyte (i : Nat) (hi : i < 4) : (s.placeWord pc v).byteAt pc i = byteOf v i := by
    rw [State.byteAt, State.placeWord_mem]
    exact commitBytes_word_read hm hsize h.roomy pc v hi
  have hadm : Admits (s.placeWord pc v).config pc 4 .fetch := h.fetches
  have hbytes : (List.range 4).map ((s.placeWord pc v).byteAt pc) = leBytes v 4 :=
    List.map_congr_left fun i hi => hbyte i (List.mem_range.mp hi)
  rw [fetch, memRead_admitted hadm, hbytes, leWord_leBytes]

/-- A word put where the next step fetches it: under a configuration in which it can be fetched, at the pc of the slot
that `openSlot` opens. -/
theorem State.withFetchWord_eq (s : State) (v : Word) : ∃ (t : State) (w : Warrior),
    s.withFetchWord 32 v.toNat = t.placeWord w.cpu.pc v ∧ t.schedState = .running ∧ t.slot? = some w ∧ t.mem = s.mem ∧
      Fetchable t.config w.cpu.pc := by
  obtain ⟨hs, hmem, w, hw⟩ := s.openSlot_spec
  refine ⟨{ s.openSlot with config := fetchableConfig s.openSlot.config w.cpu.pc }, w, ?_, hs, hw, hmem,
    fetchableConfig_fetchable ..⟩
  simp only [State.withFetchWord, hw, tableWord_toNat]

/-- Settles O33: the word placed is the one fetched, and a step with a slot open runs what it decodes to. -/
theorem withFetchWordIsFetchedNext : Obligations.WithFetchWordIsFetchedNext := by
  intro s v i hm hd
  obtain ⟨t, w, hu, hs, hw, hmem, hf⟩ := s.withFetchWord_eq v
  have hslot : (t.placeWord w.cpu.pc v).slot? = some w := hw
  have hfetch : fetch (t.placeWord w.cpu.pc v) w.cpu.pc = .ok v := fetch_placeWord (hmem ▸ hm) hf v
  dsimp only
  rw [hu]
  refine ⟨⟨w, hslot⟩, decodeTableWord_eq_some hd, ?_⟩
  rw [step_open (s := t.placeWord w.cpu.pc v) hs hf.admitted hslot, warriorStep_of_fetch hslot hfetch hd]

end Sys2Proof.Machine

namespace Sys2Proof.Machine

/-! ## Instructions that end in a register write (R110, R175) -/

section
variable {word : Word} {i : Instr} {s : State} {w : Warrior} {rd : RegIdx} {u v pc : Word}

/-- A word performs what its instruction retires; `v` is the value written as the statements put it. -/
theorem performs_of_retire (hw : s.slot? = some w) (hd : decode word = .ok i) (he : exec i s = retire s w rd u pc)
    (hv : u = v) : Performs word i s w rd v pc := by
  subst hv
  exact ⟨hd, he ▸ retire_effect hw rd u pc⟩

/-- So does the encoding of an instruction. -/
theorem performs_encode (hw : s.slot? = some w) (hwf : i.wellFormed = true) (he : exec i s = retire s w rd u pc)
    (hv : u = v) : Performs (encode i) i s w rd v pc :=
  performs_of_retire hw (decodeReadsBackEncode i hwf) he hv

end

/-! ## The values written, as integer arithmetic (R17, R111) -/

/-- R112 -/
theorem add_eq_ofNat_mod (x y : Word) : x + y = BitVec.ofNat 32 ((x.toNat + y.toNat) % 2 ^ 32) := by
  apply BitVec.eq_of_toNat_eq
  rw [BitVec.toNat_add, BitVec.toNat_ofNat, Nat.mod_mod]

/-- R113 -/
theorem sub_eq_ofInt (x y : Word) : x - y = BitVec.ofInt 32 ((x.toNat : Int) - y.toNat) := by
  rw [Int.sub_eq_add_neg, BitVec.ofInt_add, BitVec.ofInt_neg, BitVec.ofInt_natCast, BitVec.ofInt_natCast,
    BitVec.ofNat_toNat, BitVec.ofNat_toNat, BitVec.setWidth_eq, BitVec.setWidth_eq, BitVec.sub_eq_add_neg]

/-- R88: the low five bits. -/
theorem shiftAmount_toNat (v : Word) : (shiftAmount v).toNat = v.toNat % 32 := by
  rw [shiftAmount, toNat_extractLsb', bitField]
  omega

theorem shiftLeft_eq_mul (x : Word) (n : BitVec 5) : shiftLeft x n = BitVec.ofNat 32 (x.toNat * 2 ^ n.toNat) := by
  apply BitVec.eq_of_toNat_eq
  rw [shiftLeft, BitVec.toNat_shiftLeft, Nat.shiftLeft_eq, BitVec.toNat_ofNat]

theorem shiftRight_eq_div (x : Word) (n : BitVec 5) : shiftRight x n = BitVec.ofNat 32 (x.toNat / 2 ^ n.toNat) := by
  rw [shiftRight, ← Nat.shiftRight_eq_div_pow, ← BitVec.toNat_ushiftRight, BitVec.ofNat_toNat, BitVec.setWidth_eq]

/-- Integer division here rounds down, as the arithmetic shift does. -/
theorem shiftRightSigned_eq_div (x : Word) (n : BitVec 5) :
    shiftRightSigned x n = BitVec.ofInt 32 (x.toInt / 2 ^ n.toNat) := by
  have hdiv : (x.sshiftRight n.toNat).toInt = x.toInt / 2 ^ n.toNat := by
    rw [BitVec.toInt_sshiftRight, Int.shiftRight_eq_div_pow]
    push_cast
    rfl
  rw [shiftRightSigned, ← hdiv, BitVec.ofInt_toInt]

theorem boolWord_lessSigned (x y : Word) :
    boolWord (lessSigned x y) = if x.toInt < y.toInt then 1#32 else 0#32 := by
  simp [boolWord, lessSigned]

theorem boolWord_lessUnsigned (x y : Word) :
    boolWord (lessUnsigned x y) = if x.toNat < y.toNat then 1#32 else 0#32 := by
  simp [boolWord, lessUnsigned]

/-- Sign extension keeps the immediate's value (R83). -/
theorem simm12_toInt (imm : BitVec 12) : (simm12 imm).toInt = imm.toInt := BitVec.toInt_signExtend_of_le (by decide)

theorem add_simm12_eq_ofInt (x : Word) (imm : BitVec 12) : x + simm12 imm = BitVec.ofInt 32 (x.toInt + imm.toInt) := by
  rw [← simm12_toInt, BitVec.ofInt_add, BitVec.ofInt_toInt, BitVec.ofInt_toInt]

theorem upperImm_eq_ofNat (imm : BitVec 20) : upperImm imm = BitVec.ofNat 32 (imm.toNat * 4096) := by
  apply BitVec.eq_of_toNat_eq
  rw [upperImm, BitVec.toNat_append, BitVec.toNat_zero, Nat.or_zero, Nat.shiftLeft_eq, BitVec.toNat_ofNat]
  have := imm.isLt
  omega

theorem add_upperImm_eq_ofNat (x : Word) (imm : BitVec 20) :
    x + upperImm imm = BitVec.ofNat 32 (x.toNat + imm.toNat * 4096) := by
  rw [upperImm_eq_ofNat, BitVec.ofNat_add, BitVec.ofNat_toNat, BitVec.setWidth_eq]

/-! ## The shifts' selectors (R92, R93, R114, R118, R128, R129) -/

/-- SLL does not look at funct7. -/
theorem decode_sll_any_funct7 (funct7 : BitVec 7) (rd rs1 rs2 : RegIdx) :
    decode (encodeR funct7 0b001#3 0b0110011#7 rd rs1 rs2) = .ok (.sll rd rs1 rs2) := by
  simp [decode, decodeOp]

/-- SLLI does not look at inst[31:25]. -/
theorem decode_slli_any_high (high : BitVec 7) (rd rs1 : RegIdx) (shamt : BitVec 5) :
    decode (encodeR high 0b001#3 0b0010011#7 rd rs1 shamt) = .ok (.slli rd rs1 shamt) := by
  simp [decode, decodeOpImm]

section
variable {selector : BitVec 7} (hlogical : selector ≠ 0b0000000#7) (harith : selector ≠ 0b0100000#7)
include hlogical harith

/-- A right shift's selector is one of two, the logical shift's or the arithmetic one's: by the two premises `simp`
comes to the last arm of the dispatch. -/
theorem illegalWord_opRightShift (rd rs1 rs2 : RegIdx) :
    IllegalWord (encodeR selector 0b101#3 0b0110011#7 rd rs1 rs2) :=
  illegalWord_of_rejected (e := .funct7 (encodeR selector 0b101#3 0b0110011#7 rd rs1 rs2))
    (by simp [decode, decodeOp])

theorem illegalWord_opImmRightShift (rd rs1 : RegIdx) (shamt : BitVec 5) :
    IllegalWord (encodeR selector 0b101#3 0b0010011#7 rd rs1 shamt) :=
  illegalWord_of_rejected (e := .funct7 (encodeR selector 0b101#3 0b0010011#7 rd rs1 shamt))
    (by simp [decode, decodeOpImm])

end

/-! ## The integer instructions (40_integer.md) -/

/-- Settles O7: the shift amount is the low five bits of `x[rs2]`, and any selector but the two is rejected. -/
theorem registerShiftsUseFiveBits : Obligations.RegisterShiftsUseFiveBits := by
  intro s w rd rs1 rs2 hw x n
  have hn : (shiftAmount (w.cpu.read rs2)).toNat = n := shiftAmount_toNat _
  refine ⟨fun funct7 => ?_, ?_, ?_, fun funct7 h0 h1 => illegalWord_opRightShift h0 h1 rd rs1 rs2⟩
  · exact performs_of_retire hw (decode_sll_any_funct7 funct7 rd rs1 rs2) (inSlot_open hw _)
      (hn ▸ shiftLeft_eq_mul x (shiftAmount (w.cpu.read rs2)))
  · exact performs_encode (i := .srl rd rs1 rs2) hw rfl (inSlot_open hw _)
      (hn ▸ shiftRight_eq_div x (shiftAmount (w.cpu.read rs2)))
  · exact performs_encode (i := .sra rd rs1 rs2) hw rfl (inSlot_open hw _)
      (hn ▸ shiftRightSigned_eq_div x (shiftAmount (w.cpu.read rs2)))

/-- Settles O12: as the register shifts, by the amount in the word. -/
theorem immediateShiftsUseShamt : Obligations.ImmediateShiftsUseShamt := by
  intro s w rd rs1 shamt hw x
  refine ⟨fun high => ?_, ?_, ?_, fun high h0 h1 => illegalWord_opImmRightShift h0 h1 rd rs1 shamt⟩
  · exact performs_of_retire hw (decode_slli_any_high high rd rs1 shamt) (inSlot_open hw _) (shiftLeft_eq_mul x shamt)
  · exact performs_encode (i := .srli rd rs1 shamt) hw rfl (inSlot_open hw _) (shiftRight_eq_div x shamt)
  · exact performs_encode (i := .srai rd rs1 shamt) hw rfl (inSlot_open hw _) (shiftRightSigned_eq_div x shamt)

/-- Settles O6: the words are the encodings, and the values the sum and the difference. -/
theorem addAndSubAreModulo : Obligations.AddAndSubAreModulo := by
  intro s w rd rs1 rs2 hw x y
  constructor
  · exact performs_encode (i := .add rd rs1 rs2) hw rfl (inSlot_open hw _) (add_eq_ofNat_mod x y)
  · exact performs_encode (i := .sub rd rs1 rs2) hw rfl (inSlot_open hw _) (sub_eq_ofInt x y)

/-- Settles O8: the comparison's Boolean as a Word. -/
theorem setLessThanGivesOneOrZero : Obligations.SetLessThanGivesOneOrZero := by
  intro s w rd rs1 rs2 hw x y
  constructor
  · exact performs_encode (i := .slt rd rs1 rs2) hw rfl (inSlot_open hw _) (boolWord_lessSigned x y)
  · exact performs_encode (i := .sltu rd rs1 rs2) hw rfl (inSlot_open hw _) (boolWord_lessUnsigned x y)

/-- Settles O9: the values are those the instructions retire. -/
theorem registerLogicIsBitwise : Obligations.RegisterLogicIsBitwise := by
  intro s w rd rs1 rs2 hw x y
  refine ⟨?_, ?_, ?_⟩
  · exact performs_encode (i := .xor rd rs1 rs2) hw rfl (inSlot_open hw _) rfl
  · exact performs_encode (i := .or rd rs1 rs2) hw rfl (inSlot_open hw _) rfl
  · exact performs_encode (i := .and rd rs1 rs2) hw rfl (inSlot_open hw _) rfl

/-- Settles O10: sign extension keeps the immediate's value for the sum and the signed comparison. -/
theorem addImmediateAndComparesImmediate : Obligations.AddImmediateAndComparesImmediate := by
  intro s w rd rs1 imm hw x
  refine ⟨?_, ?_, ?_⟩
  · exact performs_encode (i := .addi rd rs1 imm) hw rfl (inSlot_open hw _) (add_simm12_eq_ofInt x imm)
  · exact performs_encode (i := .slti rd rs1 imm) hw rfl (inSlot_open hw _)
      (simm12_toInt imm ▸ boolWord_lessSigned x (simm12 imm))
  · exact performs_encode (i := .sltiu rd rs1 imm) hw rfl (inSlot_open hw _) (boolWord_lessUnsigned x (simm12 imm))

/-- Settles O11: the values are those the instructions retire. -/
theorem immediateLogicIsBitwise : Obligations.ImmediateLogicIsBitwise := by
  intro s w rd rs1 imm hw x
  refine ⟨?_, ?_, ?_⟩
  · exact performs_encode (i := .xori rd rs1 imm) hw rfl (inSlot_open hw _) rfl
  · exact performs_encode (i := .ori rd rs1 imm) hw rfl (inSlot_open hw _) rfl
  · exact performs_encode (i := .andi rd rs1 imm) hw rfl (inSlot_open hw _) rfl

/-- Settles O13: the upper immediate is a multiple of 4096, and AUIPC adds it to the pc of the instruction itself. -/
theorem upperImmediates : Obligations.UpperImmediates := by
  intro s w rd imm hw
  constructor
  · exact performs_encode (i := .lui rd imm) hw rfl (inSlot_open hw _) (upperImm_eq_ofNat imm)
  · exact performs_encode (i := .auipc rd imm) hw rfl (inSlot_open hw _) (add_upperImm_eq_ofNat w.cpu.pc imm)

end Sys2Proof.Machine

namespace Sys2Proof.Machine

/-! ## Targets and conditions of a transfer of control (R17, R85, R87, R150) -/

/-- A sign-extended offset added to an address, as integers (R85, R87). -/
theorem add_signExtend_eq_ofInt {n : Nat} (hn : n ≤ 32) (x : Word) (offset : BitVec n) :
    x + offset.signExtend 32 = BitVec.ofInt 32 (x.toInt + offset.toInt) := by
  rw [← BitVec.toInt_signExtend_of_le hn, BitVec.ofInt_add, BitVec.ofInt_toInt, BitVec.ofInt_toInt]

theorem lessSigned_iff {x y : Word} : lessSigned x y = true ↔ x.toInt < y.toInt := decide_eq_true_iff

theorem lessUnsigned_iff {x y : Word} : lessUnsigned x y = true ↔ x.toNat < y.toNat := decide_eq_true_iff

/-- Equal operands are not less, so BGE takes them (R154). -/
theorem not_lessSigned_iff {x y : Word} : (!lessSigned x y) = true ↔ y.toInt ≤ x.toInt := by
  rw [Bool.not_eq_true', ← Bool.not_eq_true, lessSigned_iff, Int.not_lt]

/-- The same for BGEU (R156). -/
theorem not_lessUnsigned_iff {x y : Word} : (!lessUnsigned x y) = true ↔ y.toNat ≤ x.toNat := by
  rw [Bool.not_eq_true', ← Bool.not_eq_true, lessUnsigned_iff, Nat.not_lt]

/-! ## Instructions that end in a transfer of control (R150, R175) -/

section
variable {word : Word} {i : Instr} {s : State} {w : Warrior} (hw : s.slot? = some w) (hword : word = encode i)
  (hwf : i.wellFormed = true)
include hw hword hwf

/-- A word put together from its fields performs what its instruction retires; `pc` is the target as the statements put
it. -/
theorem performs_transfer {rd : RegIdx} {v target pc : Word} (he : exec i s = retire s w rd v target)
    (hpc : target = pc) : Performs word i s w rd v pc := by
  subst hword hpc
  exact performs_encode hw hwf he rfl

/-- A branch writes no register and goes to its target exactly when the condition `P` that it tests holds. -/
theorem performs_branch {cond : Word → Word → Bool} {rs1 rs2 : RegIdx} {offset : BitVec 13} {P : Prop} [Decidable P]
    (he : exec i s = branch cond rs1 rs2 offset s) (hcond : cond (w.cpu.read rs1) (w.cpu.read rs2) = true ↔ P) :
    Performs word i s w 0#5 0#32
      (if P then BitVec.ofInt 32 (w.cpu.pc.toInt + offset.toInt) else w.cpu.pc + 4#32) :=
  performs_transfer hw hword hwf (he.trans (inSlot_open hw _))
    (if_congr hcond (add_signExtend_eq_ofInt (by decide) w.cpu.pc offset) rfl)

end

/-- JALR has one funct3 (R97): by the premise `simp` comes to the rejecting branch of its decoder. -/
theorem illegalWord_jalr {funct3 : BitVec 3} (h : funct3 ≠ 0b000#3) (rd rs1 : RegIdx) (imm : BitVec 12) :
    IllegalWord (encodeI funct3 0b1100111#7 rd rs1 imm) :=
  illegalWord_of_rejected (e := .funct3 (encodeI funct3 0b1100111#7 rd rs1 imm)) (by simp [decode, decodeJalr, h])

/-! ## The control-transfer instructions (41_control.md) -/

/-- Settles O14: the word is the encoding of the branch, whose condition is the equality or its negation. -/
theorem equalityBranches : Obligations.EqualityBranches := by
  intro s w rs1 rs2 b12 b11 b10 b4 hw x y offset target
  have heven : evenBranch offset = true := evenBranch_fields ..
  constructor
  · exact performs_branch (i := .beq rs1 rs2 offset) hw (encodeB_fields ..) heven rfl beq_iff_eq
  · exact performs_branch (i := .bne rs1 rs2 offset) hw (encodeB_fields ..) heven rfl bne_iff_ne

/-- Settles O15: likewise, with the signed and the unsigned order. -/
theorem orderBranches : Obligations.OrderBranches := by
  intro s w rs1 rs2 b12 b11 b10 b4 hw x y offset target
  have heven : evenBranch offset = true := evenBranch_fields ..
  refine ⟨?_, ?_, ?_, ?_⟩
  · exact performs_branch (i := .blt rs1 rs2 offset) hw (encodeB_fields ..) heven rfl lessSigned_iff
  · exact performs_branch (i := .bge rs1 rs2 offset) (cond := fun a b => !lessSigned a b) hw
      (encodeB_fields ..) heven rfl not_lessSigned_iff
  · exact performs_branch (i := .bltu rs1 rs2 offset) hw (encodeB_fields ..) heven rfl lessUnsigned_iff
  · exact performs_branch (i := .bgeu rs1 rs2 offset) (cond := fun a b => !lessUnsigned a b) hw
      (encodeB_fields ..) heven rfl not_lessUnsigned_iff

/-- Settles O16: JAL retires the return address and goes to its own pc plus the offset. -/
theorem jumpAndLink : Obligations.JumpAndLink := by
  intro s w rd b20 b11 b19 b10 hw offset
  exact performs_transfer (i := .jal rd offset) hw (encodeJ_fields ..) (evenJump_fields ..) (inSlot_open hw _)
    (add_signExtend_eq_ofInt (by decide) w.cpu.pc offset)

/-- Settles O17: JALR goes to the effective address, read before the return address is written; the decoder rejects any
other funct3. -/
theorem jumpAndLinkRegister : Obligations.JumpAndLinkRegister := by
  intro s w rd rs1 imm hw
  refine ⟨?_, fun funct3 h => illegalWord_jalr h rd rs1 imm⟩
  exact performs_transfer (i := .jalr rd rs1 imm) hw rfl rfl (inSlot_open hw _)
    (add_simm12_eq_ofInt (w.cpu.read rs1) imm)

end Sys2Proof.Machine

namespace Sys2Proof.Machine

/-! ## The access check of one byte (R53) -/

theorem admits_one {cfg : BattleConfig} {a : Word} {kind : AccessKind}
    (h : accessible cfg (linAddr cfg a 0) kind = true) : Admits cfg a 1 kind := by
  intro i hi
  obtain rfl : i = 0 := by omega
  exact h

theorem refusesFirst_one {cfg : BattleConfig} {a : Word} {kind : AccessKind}
    (h : accessible cfg (linAddr cfg a 0) kind = false) : RefusesFirst cfg a 1 kind 0 :=
  ⟨Nat.one_pos, h, fun _ hi => absurd hi (Nat.not_lt_zero _)⟩

/-! ## Loads and stores, an equation per case of the access check (R53, R160) -/

/-- An instruction that takes a fault kills its warrior. -/
theorem kills_of_takeFault {i : Instr} {s : State} {w : Warrior} {f : WarriorFault} (hw : s.slot? = some w)
    (he : exec i s = .next (s.takeFault w f)) : Kills i s w f := ⟨_, he, takeFault_effect hw f⟩

section
variable {i : Instr} {s : State} {w : Warrior} {n j : Nat} {ext : Word → Word} {rd rs1 rs2 : RegIdx} {imm : BitVec 12}
  (hw : s.slot? = some w)
include hw

/-- A load whose read answers `v` retires `v` extended. -/
theorem load_of_memRead {v : Word} (hr : memRead s (effectiveAddress w.cpu rs1 imm) n .read = .ok v) :
    load n ext rd rs1 imm s = retire s w rd (ext v) w.cpu.nextPc := by
  simp only [load, inSlot_open hw, hr]

theorem load_refused (h : RefusesFirst s.config (effectiveAddress w.cpu rs1 imm) n .read j) :
    load n ext rd rs1 imm s =
      .next (s.takeFault w (.memoryFault (linAddr s.config (effectiveAddress w.cpu rs1 imm) j) .read)) := by
  simp only [load, inSlot_open hw, memRead_refused h]

theorem store_admitted (h : Admits s.config (effectiveAddress w.cpu rs1 imm) n .write) :
    store n rs2 rs1 imm s =
      goTo (s.commitBytes (effectiveAddress w.cpu rs1 imm) (w.cpu.read rs2) n) w w.cpu.nextPc := by
  simp only [store, inSlot_open hw, memWrite_admitted h]

theorem store_refused (h : RefusesFirst s.config (effectiveAddress w.cpu rs1 imm) n .write j) :
    store n rs2 rs1 imm s =
      .next (s.takeFault w (.memoryFault (linAddr s.config (effectiveAddress w.cpu rs1 imm) j) .write)) := by
  simp only [store, inSlot_open hw, memWrite_refused h]

/-! ## What a load and a store instruction do (R160, R175, R179) -/

/-- The word of an admitted load performs it; `v` is the value loaded as the statements put it. -/
theorem performs_load {v : Word} (hwf : i.wellFormed = true) (he : exec i s = load n ext rd rs1 imm s)
    (h : Admits s.config (effectiveAddress w.cpu rs1 imm) n .read)
    (hv : ext (leWord ((List.range n).map (s.byteAt (effectiveAddress w.cpu rs1 imm)))) = v) :
    Performs (encode i) i s w rd v (w.cpu.pc + 4#32) :=
  performs_encode hw hwf (he.trans (load_of_memRead hw (memRead_admitted h))) hv

theorem kills_load (he : exec i s = load n ext rd rs1 imm s)
    (h : RefusesFirst s.config (effectiveAddress w.cpu rs1 imm) n .read j) :
    Kills i s w (.memoryFault (linAddr s.config (effectiveAddress w.cpu rs1 imm) j) .read) :=
  kills_of_takeFault hw (he.trans (load_refused hw h))

theorem completes_store (hm : Memory.wf s.mem) (he : exec i s = store n rs2 rs1 imm s)
    (h : Admits s.config (effectiveAddress w.cpu rs1 imm) n .write) :
    ∃ t, exec i s = .next t ∧
      StoreEffect s w t (effectiveAddress w.cpu rs1 imm) n (w.cpu.read rs2) (w.cpu.pc + 4#32) := by
  rw [he, store_admitted hw h]
  exact store_effect hw hm _ _ _ n

theorem kills_store (he : exec i s = store n rs2 rs1 imm s)
    (h : RefusesFirst s.config (effectiveAddress w.cpu rs1 imm) n .write j) :
    Kills i s w (.memoryFault (linAddr s.config (effectiveAddress w.cpu rs1 imm) j) .write) :=
  kills_of_takeFault hw (he.trans (store_refused hw h))

end

/-! ## The values loaded (R161 to R165) -/

theorem leWord_one (b : Byte) : leWord [b] = BitVec.ofNat 32 b.toNat := by
  simp [leWord]

/-- A value read into a Word and cut back to its width is extended with its own sign. -/
theorem signExtend_setWidth_setWidth {n : Nat} (hn : n ≤ 32) (x : BitVec n) :
    ((x.setWidth 32).setWidth n).signExtend 32 = BitVec.ofInt 32 x.toInt := by
  rw [BitVec.setWidth_setWidth_of_le x hn, BitVec.setWidth_eq, BitVec.signExtend]

theorem signByte_leWord (b : Byte) : signByte (leWord [b]) = BitVec.ofInt 32 b.toInt := by
  rw [leWord_one, BitVec.ofNat_toNat]
  exact signExtend_setWidth_setWidth (by decide) b

theorem signHalf_leWord (b0 b1 : Byte) : signHalf (leWord [b0, b1]) = BitVec.ofInt 32 (b1 ++ b0 : BitVec 16).toInt := by
  rw [leWord_two]
  exact signExtend_setWidth_setWidth (by decide) (b1 ++ b0 : BitVec 16)

/-! ## A stored word reloaded (R56) -/

/-- After a store the warrior's registers read as before. -/
theorem StoreEffect.registers_kept {s t : State} {w : Warrior} {a v pc : Word} {n : Nat}
    (h : StoreEffect s w t a n v pc) :
    ∃ c : Cpu, t.slot? = some { w with cpu := c } ∧ ∀ r, c.read r = w.cpu.read r := by
  obtain ⟨c, hslot, -, hread⟩ := h.context
  refine ⟨c, hslot, fun r => ?_⟩
  by_cases hr : r = 0#5
  · subst hr
    rw [Cpu.read_zero, Cpu.read_zero]
  · rw [hread, if_neg hr, if_neg hr]

/-- In an admitted arena of at least four bytes no two bytes of a stored word coincide, so it is read back whole. -/
theorem StoreEffect.memRead_word {s t : State} {w : Warrior} {a v pc : Word} (h : StoreEffect s w t a 4 v pc)
    (hsize : sizeAdmitted s.config = true) (hfour : 4 ≤ s.config.arenaSize) (hread : Admits s.config a 4 .read) :
    memRead t a 4 .read = .ok v := by
  have hbyte (i : Nat) (hi : i < 4) : t.byteAt a i = byteOf v i := by
    rw [State.byteAt, h.battle.config]
    exact h.stored i hi fun k hik hk e => hik.ne' (linAddr_injective hsize hfour hk hi e)
  have hbytes : (List.range 4).map (t.byteAt a) = leBytes v 4 :=
    List.map_congr_left fun i hi => hbyte i (List.mem_range.mp hi)
  rw [memRead_admitted (h.battle.config.symm ▸ hread), hbytes, leWord_leBytes]

/-! ## The load instructions (42_loadstore.md) -/

/-- Settles O18: a byte read is zero-extended, and LB extends it with its sign. -/
theorem byteLoads : Obligations.ByteLoads := by
  intro s w rd rs1 imm hw ea lin byte
  constructor
  · intro h
    exact ⟨performs_load (i := .lb rd rs1 imm) hw rfl rfl (admits_one h) (signByte_leWord byte),
      performs_load (i := .lbu rd rs1 imm) (ext := fun v => v) hw rfl rfl (admits_one h) (leWord_one byte)⟩
  · intro h
    exact ⟨kills_load hw rfl (refusesFirst_one h), kills_load hw rfl (refusesFirst_one h)⟩

/-- Settles O19: as the byte loads, with the first of the two bytes the less significant. -/
theorem halfwordLoads : Obligations.HalfwordLoads := by
  intro s w rd rs1 imm hw ea half
  constructor
  · intro h
    exact ⟨performs_load (i := .lh rd rs1 imm) hw rfl rfl h (signHalf_leWord _ _),
      performs_load (i := .lhu rd rs1 imm) (ext := fun v => v) hw rfl rfl h
        ((leWord_two _ _).trans (BitVec.ofNat_toNat 32 half).symm)⟩
  · intro j h
    exact ⟨kills_load hw rfl h, kills_load hw rfl h⟩

/-- Settles O20: the reload runs on the state the store leaves, whose registers give the same address. -/
theorem wordLoads : Obligations.WordLoads := by
  intro s w rd rs1 imm hw ea byte
  refine ⟨fun h => ?_, fun j h => kills_load hw rfl h, fun rs2 hm hsize hfour hwrite hread => ?_⟩
  · exact performs_load (i := .lw rd rs1 imm) (ext := fun v => v) hw rfl rfl h (leWord_four ..)
  · obtain ⟨t, ht, hstore⟩ := completes_store (i := .sw rs2 rs1 imm) hw hm rfl hwrite
    obtain ⟨c, hslot, hregs⟩ := hstore.registers_kept
    have haddr : effectiveAddress c rs1 imm = ea := congrArg (· + simm12 imm) (hregs rs1)
    have hval : memRead t (effectiveAddress c rs1 imm) 4 .read = .ok (w.cpu.read rs2) :=
      haddr ▸ hstore.memRead_word hsize hfour hread
    obtain ⟨u, hu, hload⟩ := retire_effect hslot rd (w.cpu.read rs2) c.nextPc
    obtain ⟨d, hd, -, hrd⟩ := hload.context
    have hlw : exec (.lw rd rs1 imm) t = .next u := (load_of_memRead hslot hval).trans hu
    exact ⟨t, u, d, ht, hlw, hd, fun hne => by rw [hrd, if_neg hne, if_pos rfl]⟩

/-! ## The store instructions (42_loadstore.md) -/

/-- The word of a store put together from its fields decodes to it. -/
theorem decode_store_fields {i : Instr} {high : BitVec 7} {low : BitVec 5} {funct3 : BitVec 3} {rs1 rs2 : RegIdx}
    (hwf : i.wellFormed = true) (he : encode i = encodeS funct3 0b0100011#7 rs1 rs2 (high ++ low)) :
    decode (high ++ rs2 ++ rs1 ++ funct3 ++ low ++ 0b0100011#7) = .ok i := by
  rw [encodeS_fields, ← he]
  exact decodeReadsBackEncode i hwf

/-- Settles O21: a store of one byte, which is the first refused when it is refused. -/
theorem byteStore : Obligations.ByteStore := by
  intro s w rs1 rs2 high low hw hm imm ea
  exact ⟨decode_store_fields rfl rfl, fun h => completes_store hw hm rfl (admits_one h),
    fun h => kills_store hw rfl (refusesFirst_one h)⟩

/-- Settles O22: a store of two bytes. -/
theorem halfwordStore : Obligations.HalfwordStore := by
  intro s w rs1 rs2 high low hw hm imm ea
  exact ⟨decode_store_fields rfl rfl, completes_store hw hm rfl, fun _ h => kills_store hw rfl h⟩

/-- Settles O23: a store of four bytes. -/
theorem wordStore : Obligations.WordStore := by
  intro s w rs1 rs2 high low hw hm imm ea
  exact ⟨decode_store_fields rfl rfl, completes_store hw hm rfl, fun _ h => kills_store hw rfl h⟩

end Sys2Proof.Machine

namespace Sys2Proof.Machine

/-! ## A warrior's step: fetch, decode, execute (R171 to R173, R178) -/

/-- An admitted fetch gives the word whose most significant byte is the last of the four (R54, R172). -/
theorem fetch_admitted {s : State} {pc : Word} (h : Admits s.config pc 4 .fetch) :
    fetch s pc = .ok (Memory.read s.mem (linAddr s.config pc 3) ++ Memory.read s.mem (linAddr s.config pc 2) ++
      Memory.read s.mem (linAddr s.config pc 1) ++ Memory.read s.mem (linAddr s.config pc 0)) := by
  rw [fetch, memRead_admitted h]
  exact congrArg Except.ok (leWord_four ..)

/-- A refused fetch is the warrior's death (R173). -/
theorem warriorStep_of_fetch_error {s : State} {w : Warrior} {f : WarriorFault} (hw : s.slot? = some w)
    (hf : fetch s w.cpu.pc = .error f) : warriorStep s = .next (s.takeFault w f) := by
  simp only [warriorStep, inSlot_open hw, hf]

/-- Settles O30: each clause is one case of the fetch and of the decoding of the word fetched. -/
theorem warriorStepFetchesDecodesExecutes : Obligations.WarriorStepFetchesDecodesExecutes := by
  intro s w hw pc byte inst
  refine ⟨fun j hj => ?_, fun hadm e he => ?_, fun hadm i hi => ?_⟩
  · exact ⟨_, warriorStep_of_fetch_error hw (memRead_refused hj), takeFault_effect hw _⟩
  · exact (illegalWord_of_rejected he).kills s w hw (fetch_admitted hadm)
  · exact warriorStep_of_fetch hw (fetch_admitted hadm) hi

/-- Settles O31: the step comes to an action of the warrior, and of the actions only a death leaves it dead. -/
theorem faultsArePrecise : Obligations.FaultsArePrecise := by
  intro s t w u hw ht hu hdead
  obtain ⟨A, hA⟩ := warriorStep_runs hw
  obtain rfl : A.apply s w = t := by simpa [hA] using ht
  obtain rfl : A.record w = u := Option.some.inj ((Action.apply_slot hw A).symm.trans hu)
  cases A with
  | done a v n c =>
    have halive : w.alive = true := (State.slot?_eq_some.mp hw).2
    exact absurd (halive.symm.trans hdead) (by decide)
  | died f => exact ⟨f, takeFault_effect hw f⟩

/-- Settles O32: a step with a slot open is the warrior's step and what closes the slot. -/
theorem stepRunsTheDecodedInstruction : Obligations.StepRunsTheDecodedInstruction := by
  intro s w i hs hr hw hadm hd
  rw [step_open hs hr hw, warriorStep_of_fetch hw (fetch_admitted hadm) hd]

/-! ## Slots and rounds (R181, R184) -/

/-- An admitted configuration is not refused. -/
theorem guarded_admitted {s : State} (h : refusal? s.config = none) (r : Result) : guarded s r = r := by
  simp only [guarded, h]

theorem slot_skipped {s : State} (h : s.slot? = none) : slot s = .next s.nextSlot := by
  simp only [slot, h]

theorem slot?_of_dead {s : State} {w : Warrior} (hw : s.warriors[s.cursor]? = some w) (hdead : w.alive = false) :
    s.slot? = none := by
  simp [State.slot?, hw, hdead]

/-- The skipped slot of a dead warrior: the step only moves the cursor on and closes the round after the last slot. -/
theorem step_dead_slot {s : State} {w : Warrior} (hs : s.schedState = .running) (hr : refusal? s.config = none)
    (hw : s.warriors[s.cursor]? = some w) (hdead : w.alive = false) : step s = .next s.nextSlot.closeRound := by
  have hlt : s.cursor < s.warriors.length := (List.getElem?_eq_some_iff.mp hw).1
  rw [step_slot hs hlt, guarded_admitted hr, slot_skipped (slot?_of_dead hw hdead), onNext_next]

/-- Between two rounds a step opens slot 0. -/
theorem step_opens_round {s : State} (hs : s.schedState = .running) (hr : refusal? s.config = none)
    (hN : 0 < s.warriors.length) (hc : s.cursor = s.warriors.length) : step s = .next s.beginRound := by
  rw [step_nextRound hs (by omega), guarded_admitted hr, State.closeRound_open (s := s.beginRound) hN]

/-- A slot before the round's last moves the cursor on and closes nothing. -/
theorem State.nextSlot_closeRound_middle {s : State} (h : s.cursor + 1 < s.warriors.length) :
    s.nextSlot.closeRound = { s with cursor := s.cursor + 1 } :=
  State.closeRound_open h

/-- The round's last slot leaves the cursor at N, counts and emits the round, and the boundary is checked. -/
theorem State.nextSlot_closeRound_last {s : State} (h : s.cursor + 1 = s.warriors.length) :
    s.nextSlot.closeRound =
      { s with
        cursor := s.warriors.length
        roundsCompleted := s.roundsCompleted + 1
        events := s.events ++ [Event.roundCompleted (s.roundsCompleted + 1)] }.boundaryCheck :=
  State.closeRound_last (s := s.nextSlot) h.not_lt

/-- Settles O34: the step is the warrior's step, or nothing for a dead one, then what closes the slot; a warrior's action
leaves the cursor, the round count and N as they were. -/
theorem roundGrantsSlotsInIndexOrder : Obligations.RoundGrantsSlotsInIndexOrder := by
  intro s hs hr hN ended
  refine ⟨fun w hw => ?_, fun w hw hdead => ?_, step_opens_round hs hr hN⟩
  · obtain ⟨A, hA⟩ := warriorStep_runs hw
    have hcursor := (A.apply_battle s w).cursor
    have hrounds := (A.apply_battle s w).roundsCompleted
    have hlen := (A.apply_others s w).length
    have hstep : step s = .next (A.apply s w).nextSlot.closeRound := by rw [step_open hs hr hw, hA, onNext_next]
    refine ⟨_, hA, hcursor, hrounds, hlen, fun hlt => ?_, fun hlast => ?_⟩
    · rw [hstep, State.nextSlot_closeRound_middle (by omega), hcursor]
    · rw [hstep, State.nextSlot_closeRound_last (by omega), hlen, hrounds]
  · rw [step_dead_slot hs hr hw hdead]
    exact ⟨fun hlt => by rw [State.nextSlot_closeRound_middle hlt],
      fun hlast => by rw [State.nextSlot_closeRound_last hlast]⟩

/-! ## The boundary (R185, R186) -/

theorem aliveCount_eq_filter (s : State) : s.aliveCount = (s.warriors.filter fun w => w.alive).length :=
  List.countP_eq_length_filter

/-- The draw of the coming boundary requests an abort exactly when the host has listed one that does (R32). -/
theorem abortRequested_iff {s : State} : s.abortRequested = true ↔ s.abortDraws.head? = some true := by
  unfold State.abortRequested
  cases s.abortDraws <;> simp

/-- A boundary with a reason to end ends the battle for it and changes nothing else. -/
theorem endedFor_boundaryCheck {s : State} {r : Reason} (h : s.endReason? = some r) :
    EndedFor s s.boundaryCheck r := by
  rw [State.boundaryCheck_some h]
  constructor <;> rfl

/-- With two survivors the cap comes before the abort request. -/
theorem endReason?_of_two_le {s : State} (h : 2 ≤ s.aliveCount) :
    s.endReason? =
      if s.config.roundCap ≤ s.roundsCompleted then some .roundCap
      else if s.abortRequested then some .aborted else none := by
  rw [State.endReason?, if_neg (by omega), if_neg (by omega)]

/-- Settles O35: the reason of the boundary in each of the five cases. -/
theorem boundaryGivesTheFirstReason : Obligations.BoundaryGivesTheFirstReason := by
  intro s a t
  have ha : s.aliveCount = a := aliveCount_eq_filter s
  refine ⟨State.boundaryCheck_abortDraws s, fun h => ?_, fun h => ?_, fun h hcap => ?_, fun h hcap habort => ?_,
    fun h hcap habort => ?_⟩
  · exact endedFor_boundaryCheck (by rw [State.endReason?, if_pos (ha.trans h)])
  · exact endedFor_boundaryCheck (by rw [State.endReason?, if_neg (by omega), if_pos (ha.trans h)])
  · exact endedFor_boundaryCheck (by rw [endReason?_of_two_le (by omega), if_pos hcap])
  · refine endedFor_boundaryCheck ?_
    rw [endReason?_of_two_le (by omega), if_neg (by omega), if_pos (abortRequested_iff.mpr habort)]
  · refine State.boundaryCheck_none ?_
    rw [endReason?_of_two_le (by omega), if_neg (by omega), if_neg (mt abortRequested_iff.mp habort)]

end Sys2Proof.Machine

namespace Sys2Proof.Machine

/-! ## The battle only moves forward (R182, R211) -/

@[simp] theorem State.closeRound_config (s : State) : s.closeRound.config = s.config := by
  unfold State.closeRound
  split <;> simp

@[simp] theorem State.firstRound_config (s : State) : s.firstRound.config = s.config := by
  unfold State.firstRound
  split <;> simp

/-- A slot moves the cursor on and leaves the rest of the scheduler, the configuration, the phase and N as they are. -/
structure SlotFrame (s u : State) : Prop where
  config : u.config = s.config
  phase : u.phase = s.phase
  schedState : u.schedState = s.schedState
  roundsCompleted : u.roundsCompleted = s.roundsCompleted
  cursor : u.cursor = s.cursor + 1
  length : u.warriors.length = s.warriors.length

theorem slot_frame {s u : State} (h : slot s = .next u) : SlotFrame s u := by
  rcases slot_next s with ⟨w, A, -, -, hA⟩ | ⟨-, hn⟩
  · obtain rfl : (A.apply s w).nextSlot = u := by simpa [hA] using h
    have hb := A.apply_battle s w
    exact ⟨hb.config, hb.phase, hb.schedState, hb.roundsCompleted, by simp [hb.cursor], (A.apply_others s w).length⟩
  · obtain rfl : s.nextSlot = u := by simpa [hn] using h
    exact ⟨rfl, rfl, rfl, rfl, rfl, rfl⟩

/-- A slot always answers a next state. -/
theorem slot_answers (s : State) : ∃ u, slot s = .next u := by
  rcases slot_next s with ⟨w, A, -, -, hA⟩ | ⟨-, hn⟩
  · exact ⟨_, hA⟩
  · exact ⟨_, hn⟩

/-- A boundary ends the battle or leaves the scheduler's state. -/
theorem State.boundaryCheck_schedState (s : State) :
    s.boundaryCheck.schedState = .ended ∨ s.boundaryCheck.schedState = s.schedState := by
  cases h : s.endReason? with
  | some r => exact .inl (by rw [State.boundaryCheck_some h, State.endBattle_schedState])
  | none => exact .inr (by rw [State.boundaryCheck_none h])

/-- So does the closing of a round. -/
theorem State.closeRound_schedState (s : State) :
    s.closeRound.schedState = .ended ∨ s.closeRound.schedState = s.schedState := by
  by_cases hc : s.cursor < s.warriors.length
  · exact .inr (by rw [State.closeRound_open hc])
  · rw [State.closeRound_last hc]
    exact s.endRound.boundaryCheck_schedState

/-- A step of a RUNNING battle does not go back to INIT. -/
theorem State.closeRound_ne_init {s : State} (h : s.schedState = .running) : s.closeRound.schedState ≠ .init := by
  rcases s.closeRound_schedState with he | he <;> simp [he, h]

/-- What a step of a battle under way keeps. -/
theorem step_keeps {s t : State} (hp : s.phase = .running) (h : step s = .next t) :
    t.phase = .running ∧ t.config = s.config ∧ t.warriors.length = s.warriors.length := by
  rcases step_cases h with ⟨-, rfl⟩ | ⟨-, hl, -⟩ | ⟨b, -, hl, -⟩ | ⟨-, -, -, rfl⟩ | ⟨u, -, -, -, hu, rfl⟩ | ⟨-, -, -, rfl⟩
  · exact ⟨hp, rfl, rfl⟩
  · exact absurd (hp.symm.trans hl) (by decide)
  · exact absurd (hp.symm.trans hl) (by decide)
  · simp [hp]
  · have hf := slot_frame hu
    simp [hp, hf.phase, hf.config, hf.length]
  · simp [hp]

/-- A step of a RUNNING battle ends in a closed slot or round, and so does not reach INIT. -/
theorem step_running_ne_init {s t : State} (hs : s.schedState = .running) (h : step s = .next t) :
    t.schedState ≠ .init := by
  rcases step_cases h with ⟨he, -⟩ | ⟨hi, -⟩ | ⟨b, hi, -⟩ | ⟨hi, -⟩ | ⟨u, -, -, -, hu, rfl⟩ | ⟨-, -, -, rfl⟩
  · exact absurd (hs.symm.trans he) (by decide)
  · exact absurd (hs.symm.trans hi) (by decide)
  · exact absurd (hs.symm.trans hi) (by decide)
  · exact absurd (hs.symm.trans hi) (by decide)
  · exact State.closeRound_ne_init ((slot_frame hu).schedState.trans hs)
  · exact State.closeRound_ne_init hs

/-- Settles O36: ENDED is final, and the cases of a step from RUNNING and in phase Running. -/
theorem theBattleOnlyMovesForward : Obligations.TheBattleOnlyMovesForward := by
  intro s t h
  refine ⟨fun he => ?_, fun hs => step_running_ne_init hs h, fun hp => step_keeps hp h⟩
  simpa [step_ended he] using h.symm

/-! ## The machine never stops (R173, R179) -/

/-- An admitted `configure`, or one with a setup error, is answered. -/
theorem configure_answers {b : Battle} (s : State) (h : setupError? b = none → sizeAdmitted b.config = true) :
    ∃ t, configure b s = .next t := by
  cases hb : setupError? b with
  | some e => exact ⟨_, by rw [configure, hb]⟩
  | none => exact ⟨_, configure_ready s hb (h hb)⟩

/-- In phase Running, with an admitted configuration, a step answers a next state. -/
theorem step_answers {s : State} (hp : s.phase = .running) (hr : refusal? s.config = none) : SafeStep s := by
  cases hs : s.schedState with
  | ended => exact ⟨s, step_ended hs⟩
  | init => exact ⟨_, by rw [step_firstRound hs hp, guarded_admitted hr]⟩
  | running =>
    by_cases hc : s.cursor < s.warriors.length
    · obtain ⟨u, hu⟩ := slot_answers s
      exact ⟨u.closeRound, by rw [step_slot hs hc, guarded_admitted hr, hu, onNext_next]⟩
    · exact ⟨_, by rw [step_nextRound hs hc, guarded_admitted hr]⟩

/-- Settles O53: in phase Loading the battle is in INIT, where the machine waits or answers the presented `configure`; in
phase Running the invariant has the configuration admitted. -/
theorem theMachineNeverStops : Obligations.TheMachineNeverStops := by
  intro s hinv hpend
  cases hp : s.phase with
  | loading =>
    have hs := hinv.loadingInit hp
    cases hb : s.pending with
    | none => exact ⟨s, step_waiting hs hp hb⟩
    | some b =>
      rw [SafeStep, step_presented hs hp hb]
      exact configure_answers s (hpend b hb)
  | running => exact step_answers hp (hinv.admitted hp).1

/-! ## The abort draws (R32, R183, log 8) -/

/-- The machine with other abort draws to come. -/
def State.withDraws (s : State) (draws : List Bool) : State := { s with abortDraws := draws }

theorem State.commitBytes_withDraws (s : State) (draws : List Bool) (a v : Word) (n : Nat) :
    (s.withDraws draws).commitBytes a v n = (s.commitBytes a v n).withDraws draws := by
  induction n with
  | zero => rfl
  | succ n ih => rw [State.commitBytes, ih, State.commitBytes]; rfl

theorem Action.apply_withDraws (A : Action) (s : State) (draws : List Bool) (w : Warrior) :
    A.apply (s.withDraws draws) w = (A.apply s w).withDraws draws := by
  cases A with
  | done a v n c => rw [Action.apply, State.commitBytes_withDraws]; rfl
  | died f => rfl

/-- A slot with other draws is the same slot: its action depends on the configuration, the bytes and the CPU state alone. -/
theorem slot_withDraws (s : State) (draws : List Bool) :
    slot (s.withDraws draws) = onNext (State.withDraws · draws) (slot s) := by
  have hslot : (s.withDraws draws).slot? = s.slot? := rfl
  cases h : s.slot? with
  | none => rw [slot_skipped h, slot_skipped (hslot.trans h), onNext_next]; rfl
  | some w =>
    obtain ⟨A, hA⟩ := warriorStep_uniform s.config s.mem w.cpu
    have h1 := hA s w h rfl rfl rfl
    have h2 := hA (s.withDraws draws) w (hslot.trans h) rfl rfl rfl
    simp only [slot, hslot, h, h1, h2, Action.apply_withDraws, onNext_next]
    rfl

theorem loadCode_withDraws (s : State) (draws : List Bool) (offset : Nat) (code : List Byte) :
    loadCode (s.withDraws draws) offset code = (loadCode s offset code).withDraws draws := by
  induction code generalizing s offset with
  | nil => rfl
  | cons b bs ih => exact ih (s.commitByte (translateAddr s.config s.config.rvSegment offset) b) (offset + 1)

theorem loadAll_withDraws (s : State) (draws : List Bool) (ws : List WarriorInput) :
    loadAll (s.withDraws draws) ws = (loadAll s ws).withDraws draws := by
  induction ws generalizing s with
  | nil => rfl
  | cons w ws ih => rw [loadAll, loadCode_withDraws, ih, loadAll]

theorem initBattle_withDraws (b : Battle) (s : State) (draws : List Bool) :
    initBattle b (s.withDraws draws) = (initBattle b s).withDraws draws := by
  have h : loadArena b (s.withDraws draws) = (loadArena b s).withDraws draws :=
    loadAll_withDraws (s.resetFor b) draws b.warriors
  rw [initBattle, h]
  rfl

theorem configure_withDraws (b : Battle) (s : State) (draws : List Bool) :
    configure b (s.withDraws draws) = onNext (State.withDraws · draws) (configure b s) := by
  unfold configure
  rw [initBattle_withDraws]
  split
  · rfl
  · split <;> rfl

/-- No boundary is due in the step: no battle is to start its first round and no slot is its round's last. -/
structure NoBoundary (s : State) : Prop where
  init : s.schedState = .init → s.phase = .loading
  running : s.schedState = .running → 0 < s.warriors.length ∧ s.cursor + 1 ≠ s.warriors.length

/-- A step that runs no boundary is the same with other draws. -/
theorem step_withDraws {s : State} (h : NoBoundary s) (draws : List Bool) :
    step (s.withDraws draws) = onNext (State.withDraws · draws) (step s) := by
  cases hs : s.schedState with
  | ended => rw [step_ended hs, step_ended (s := s.withDraws draws) hs, onNext_next]
  | init =>
    have hp := h.init hs
    cases hb : s.pending with
    | none => rw [step_waiting hs hp hb, step_waiting (s := s.withDraws draws) hs hp hb, onNext_next]
    | some b =>
      rw [step_presented hs hp hb, step_presented (s := s.withDraws draws) hs hp hb, configure_withDraws]
  | running =>
    obtain ⟨hN, hlast⟩ := h.running hs
    have hguard (r : Result) :
        guarded (s.withDraws draws) (onNext (State.withDraws · draws) r) =
          onNext (State.withDraws · draws) (guarded s r) := by
      unfold guarded
      cases hr : refusal? s.config <;> simp [State.withDraws, hr, onNext]
    by_cases hc : s.cursor < s.warriors.length
    · obtain ⟨u, hu⟩ := slot_answers s
      have hf := slot_frame hu
      have hopen : u.cursor < u.warriors.length := by rw [hf.cursor, hf.length]; omega
      rw [step_slot hs hc, step_slot (s := s.withDraws draws) hs hc, slot_withDraws, hu, ← hguard, onNext_next,
        onNext_next, onNext_next, State.closeRound_open hopen, State.closeRound_open (s := u.withDraws draws) hopen,
        onNext_next]
    · rw [step_nextRound hs hc, step_nextRound (s := s.withDraws draws) hs hc, ← hguard, onNext_next,
        State.closeRound_open (s := s.beginRound) hN, State.closeRound_open (s := (s.withDraws draws).beginRound) hN]
      rfl

/-- A transition that is the same with any draws takes none of them: with its own draws put in their place it answers its
own next state. -/
theorem keeps_draws {f : State → Result} {s t : State}
    (hf : ∀ draws, f (s.withDraws draws) = onNext (State.withDraws · draws) (f s)) (ht : f s = .next t)
    (draws : List Bool) : t.abortDraws = s.abortDraws ∧ f (s.withDraws draws) = .next (t.withDraws draws) := by
  refine ⟨?_, by rw [hf, ht, onNext_next]⟩
  have hown : Host.Outcome.next t = onNext (State.withDraws · s.abortDraws) (f s) := ht.symm.trans (hf s.abortDraws)
  rw [ht, onNext_next, Host.Outcome.next.injEq] at hown
  exact (congrArg State.abortDraws hown).trans rfl

/-- Settles O40: slots, and steps that run no boundary, are the same with any draws. -/
theorem abortIsReadOnlyAtBoundaries : Obligations.AbortIsReadOnlyAtBoundaries :=
  fun s _ draws =>
    ⟨fun ht => keeps_draws (slot_withDraws s) ht draws,
      fun hinit hrunning ht => keeps_draws (step_withDraws ⟨hinit, hrunning⟩) ht draws⟩

end Sys2Proof.Machine

namespace Sys2Proof.Machine

/-! ## Runs of a battle under way (R182, R187) -/

/-- An ENDED machine stays as it is, however long it runs. -/
theorem run_ended {s : State} (h : s.schedState = .ended) (n : Nat) : Host.Core.run Sys2Proof.core n s = .next s := by
  induction n with
  | zero => rfl
  | succ n ih => rw [run_succ (step_ended h), ih]

/-- A run of a battle under way keeps the invariant and what every step keeps. -/
theorem run_keeps {n : Nat} {s t : State} (h : BattleInv s) (hp : s.phase = .running)
    (hrun : Host.Core.run Sys2Proof.core n s = .next t) :
    BattleInv t ∧ t.phase = .running ∧ t.config = s.config ∧ t.warriors.length = s.warriors.length := by
  induction n generalizing s with
  | zero =>
    cases hrun
    exact ⟨h, hp, rfl, rfl⟩
  | succ n ih =>
    obtain ⟨u, hu, hrun⟩ := run_succ_next hrun
    obtain ⟨hpu, hconfig, hlen⟩ := step_keeps hp hu
    rw [← hconfig, ← hlen]
    exact ih (everyStepKeepsTheInvariant s u h hu) hpu hrun

/-- The rounds counted never exceed the cap. -/
theorem BattleInv.rounds_le_cap {s : State} (h : BattleInv s) : s.roundsCompleted ≤ s.config.roundCap := by
  cases hs : s.schedState with
  | init => simp [(h.beforeRounds hs).1]
  | running => exact (h.belowCap hs).le
  | ended => exact h.withinCap hs

/-- An ENDED machine has a reason (R31). -/
theorem BattleInv.reason_of_ended {s : State} (h : BattleInv s) (he : s.schedState = .ended) :
    ∃ r, s.reason = some r := Option.isSome_iff_exists.mp (h.reasonIff.mpr he)

/-! ## The rest of a round as machine steps (R181, R187, log 1) -/

/-- The slots left in a round are as many machine steps, and the last of them also ends the round and checks the boundary
after it; then the cursor is N and one round more is counted. -/
theorem run_rest_of_round {k : Nat} {s : State} (hs : s.schedState = .running) (hr : refusal? s.config = none)
    (hk : s.cursor + (k + 1) = s.warriors.length) :
    ∃ u, slots (k + 1) s = .next u ∧ Host.Core.run Sys2Proof.core (k + 1) s = .next u.endRound.boundaryCheck ∧
      u.roundsCompleted = s.roundsCompleted := by
  induction k generalizing s with
  | zero =>
    obtain ⟨u, hu⟩ := slot_answers s
    have hf := slot_frame hu
    have hlast : ¬ u.cursor < u.warriors.length := by rw [hf.cursor, hf.length]; omega
    have hstep : step s = .next u.endRound.boundaryCheck := by
      rw [step_slot hs (by omega), guarded_admitted hr, hu, onNext_next, State.closeRound_last hlast]
    exact ⟨u, by rw [slots, hu]; rfl, by rw [run_succ hstep]; rfl, hf.roundsCompleted⟩
  | succ k ih =>
    obtain ⟨v, hv⟩ := slot_answers s
    have hf := slot_frame hv
    have hopen : v.cursor < v.warriors.length := by rw [hf.cursor, hf.length]; omega
    have hstep : step s = .next v := by
      rw [step_slot hs (by omega), guarded_admitted hr, hv, onNext_next, State.closeRound_open hopen]
    obtain ⟨u, hslots, hrun, hrounds⟩ := ih (s := v) (hf.schedState.trans hs) (hf.config ▸ hr)
      (by rw [hf.cursor, hf.length]; omega)
    exact ⟨u, by rw [slots, hv]; exact hslots, by rw [run_succ hstep, hrun], hrounds.trans hf.roundsCompleted⟩

/-- RUNNING, with the first slot of a round next. -/
def State.openRound (s : State) : State := { s with schedState := .running }.beginRound

theorem State.openRound_of_running {s : State} (h : s.schedState = .running) : s.openRound = s.beginRound := by
  rw [State.openRound, ← h]

/-- A first boundary at which the battle goes on opens round 1. -/
theorem State.firstRound_of_not_ended {s : State} (hN : 0 < s.warriors.length)
    (h : s.boundaryCheck.schedState ≠ .ended) : s.firstRound = s.boundaryCheck.openRound := by
  have hopen : s.boundaryCheck.openRound.cursor < s.boundaryCheck.openRound.warriors.length :=
    s.boundaryCheck_warriors.symm ▸ hN
  unfold State.firstRound
  split
  case h_1 he => exact absurd he h
  all_goals exact State.closeRound_open hopen

/-- `round()` and the boundary after it are the N steps of the round that has been opened. -/
theorem roundAndBoundary_eq_run {s : State} (hr : refusal? s.config = none) (hN : 0 < s.warriors.length) :
    ∃ t, roundAndBoundary s = .next (t, decide (t.schedState ≠ .ended)) ∧
      Host.Core.run Sys2Proof.core s.warriors.length s.openRound = .next t ∧
      t.cursor = t.warriors.length ∧ t.roundsCompleted = s.roundsCompleted + 1 := by
  obtain ⟨k, hk⟩ : ∃ k, s.warriors.length = k + 1 := ⟨s.warriors.length - 1, by omega⟩
  obtain ⟨u, hslots, hrun, hrounds⟩ := run_rest_of_round (s := s.openRound) rfl hr ((Nat.zero_add _).trans hk.symm)
  have hround : oneRound { s with schedState := .running } = .next u.endRound := by
    rw [← hk] at hslots
    exact congrArg (onNext State.endRound) hslots
  refine ⟨u.endRound.boundaryCheck, by rw [roundAndBoundary, hround], by rw [hk, hrun], by simp, ?_⟩
  rw [State.boundaryCheck_roundsCompleted, State.endRound_roundsCompleted, hrounds]
  rfl

/-! ## `runRound` as machine steps (R187) -/

theorem runRound_ended {s : State} (hs : s.schedState = .ended) : runRound s = .next (s, false) := by
  simp only [runRound, hs]

theorem runRound_running {s : State} (hs : s.schedState = .running) (hr : refusal? s.config = none) :
    runRound s = roundAndBoundary s := by
  simp only [runRound, hs, hr]

/-- The first `runRound`, when the boundary before round 1 ends the battle. -/
theorem runRound_first_ended {s : State} (hs : s.schedState = .init) (hp : s.phase = .running)
    (hr : refusal? s.config = none) (he : s.boundaryCheck.schedState = .ended) :
    runRound s = .next (s.boundaryCheck, false) := by
  simp only [runRound, hs, hp, hr, he]

/-- The first `runRound`, when the battle goes on after that boundary. -/
theorem runRound_first_goes_on {s : State} (hs : s.schedState = .init) (hp : s.phase = .running)
    (hr : refusal? s.config = none) (he : s.boundaryCheck.schedState ≠ .ended) :
    runRound s = roundAndBoundary s.boundaryCheck := by
  simp only [runRound, hs, hp, hr]
  split
  case h_1 he' => exact absurd he' he
  all_goals rfl

/-- A battle under way between two rounds, before the first or after the last one too: where the host calls `runRound`. -/
structure BetweenRounds (s : State) : Prop where
  inv : BattleInv s
  phase : s.phase = .running
  cursor : s.cursor = s.warriors.length

/-- `runRound` is N + 1 machine steps: the one that opens the round, after the first boundary when it is the first round,
and one a slot. Unless the battle ends one round more is counted. -/
theorem runRound_eq_run {s : State} (h : BetweenRounds s) :
    ∃ t, runRound s = .next (t, decide (t.schedState ≠ .ended)) ∧
      Host.Core.run Sys2Proof.core (s.warriors.length + 1) s = .next t ∧ t.cursor = t.warriors.length ∧
      (t.schedState ≠ .ended → t.roundsCompleted = s.roundsCompleted + 1) := by
  obtain ⟨hr, hN⟩ := h.inv.admitted h.phase
  cases hs : s.schedState with
  | ended => exact ⟨s, by simp [runRound_ended hs, hs], run_ended hs _, h.cursor, fun hne => absurd hs hne⟩
  | init =>
    have hstep : step s = .next s.firstRound := by rw [step_firstRound hs h.phase, guarded_admitted hr]
    by_cases he : s.boundaryCheck.schedState = .ended
    · have hfirst : s.firstRound = s.boundaryCheck := by simp only [State.firstRound, he]
      refine ⟨s.boundaryCheck, by simp [runRound_first_ended hs h.phase hr he, he], ?_, by simp [h.cursor],
        fun hne => absurd he hne⟩
      rw [run_succ hstep, hfirst, run_ended he]
    · have hlen : s.boundaryCheck.warriors.length = s.warriors.length := by simp
      obtain ⟨t, hround, hrun, hcursor, hrounds⟩ := roundAndBoundary_eq_run (s := s.boundaryCheck) (by simpa using hr)
        (hlen ▸ hN)
      refine ⟨t, (runRound_first_goes_on hs h.phase hr he).trans hround, ?_, hcursor, fun _ => by simpa using hrounds⟩
      rw [run_succ hstep, State.firstRound_of_not_ended hN he, ← hlen, hrun]
  | running =>
    obtain ⟨t, hround, hrun, hcursor, hrounds⟩ := roundAndBoundary_eq_run hr hN
    refine ⟨t, (runRound_running hs hr).trans hround, ?_, hcursor, fun _ => hrounds⟩
    rw [run_succ (step_opens_round hs hr hN h.cursor), ← State.openRound_of_running hs, hrun]

/-- Settles O43: `runRound` is N + 1 machine steps, and it answers whether they leave the battle going on. -/
theorem runRoundIsTheMachinesSteps : Obligations.RunRoundIsTheMachinesSteps := by
  intro s hinv hp hc
  obtain ⟨t, hround, hrun, -, -⟩ := runRound_eq_run ⟨hinv, hp, hc⟩
  exact ⟨t, _, hround, hrun, decide_eq_true_iff⟩

/-! ## Every battle ends (R188, R189, R222) -/

/-- Enough calls of `runRound` to pass the cap end the battle, and they are machine steps, at most N + 1 a call. -/
theorem runRounds_ends {k : Nat} {s : State} (h : BetweenRounds s) (hk : s.config.roundCap < s.roundsCompleted + k) :
    ∃ t n, runRounds k s = .next t ∧ Host.Core.run Sys2Proof.core n s = .next t ∧ n ≤ k * (s.warriors.length + 1) ∧
      t.schedState = .ended := by
  induction k generalizing s with
  | zero =>
    have := h.inv.rounds_le_cap
    omega
  | succ k ih =>
    obtain ⟨t, hround, hrun, hcursor, hrounds⟩ := runRound_eq_run h
    by_cases he : t.schedState = .ended
    · exact ⟨t, _, by simp [runRounds, hround, he], hrun, Nat.le_mul_of_pos_left _ k.succ_pos, he⟩
    · obtain ⟨hinv, hp, hconfig, hlen⟩ := run_keeps h.inv h.phase hrun
      obtain ⟨t', n, hrounds', hrun', hn, he'⟩ := ih (s := t) ⟨hinv, hp, hcursor⟩
        (by rw [hconfig, hrounds he]; omega)
      refine ⟨t', s.warriors.length + 1 + n, by simp [runRounds, hround, he, hrounds'], ?_, ?_, he'⟩
      · rw [run_add _ _ hrun, hrun']
      · rw [hlen] at hn
        rw [Nat.succ_mul]
        omega

/-- An ENDED state that a run of a battle under way reaches has its reason and at most `RoundCap` rounds. -/
theorem run_ended_within_cap {n : Nat} {s t : State} (h : BattleInv s) (hp : s.phase = .running)
    (hrun : Host.Core.run Sys2Proof.core n s = .next t) (he : t.schedState = .ended) :
    (∃ r, t.reason = some r) ∧ t.roundsCompleted ≤ s.config.roundCap := by
  obtain ⟨hinv, -, hconfig, -⟩ := run_keeps h hp hrun
  exact ⟨hinv.reason_of_ended he, hconfig ▸ hinv.withinCap he⟩

/-- Settles O44: `RoundCap` + 1 calls of `runRound` pass the cap. -/
theorem runToCompletionEnds : Obligations.RunToCompletionEnds := by
  intro s hinv hp hc
  obtain ⟨t, n, hrounds, hrun, -, he⟩ := runRounds_ends (k := s.config.roundCap + 1) ⟨hinv, hp, hc⟩ (by omega)
  obtain ⟨⟨r, hreason⟩, hcap⟩ := run_ended_within_cap hinv hp hrun he
  exact ⟨t, r, by simp [runToCompletion, hrounds, hreason], he, hreason, hcap⟩

/-- In the middle of a round the battle is between rounds within N steps, with one round more counted. -/
theorem BattleInv.finishes_round {s : State} (h : BattleInv s) (hs : s.schedState = .running)
    (hc : s.cursor ≠ s.warriors.length) :
    ∃ n t, n ≤ s.warriors.length ∧ Host.Core.run Sys2Proof.core n s = .next t ∧ BetweenRounds t ∧
      t.roundsCompleted = s.roundsCompleted + 1 := by
  have hp := h.phase_running hs
  have hlt : s.cursor < s.warriors.length := lt_of_le_of_ne h.cursorLe hc
  obtain ⟨k, hk⟩ := Nat.exists_eq_add_of_lt hlt
  obtain ⟨u, -, hrun, hrounds⟩ := run_rest_of_round hs (h.admitted hp).1 hk.symm
  obtain ⟨hinv, hpu, -, -⟩ := run_keeps h hp hrun
  exact ⟨k + 1, u.endRound.boundaryCheck, by omega, hrun, ⟨hinv, hpu, by simp⟩, by simpa using hrounds⟩

/-- A battle under way ends within N + 1 steps for each round up to the cap, and one time more. -/
theorem BattleInv.ends {s : State} (h : BattleInv s) (hp : s.phase = .running) :
    ∃ n t, n ≤ (s.config.roundCap + 1) * (s.warriors.length + 1) ∧ Host.Core.run Sys2Proof.core n s = .next t ∧
      t.schedState = .ended := by
  by_cases hc : s.cursor = s.warriors.length
  · obtain ⟨t, n, -, hrun, hn, he⟩ := runRounds_ends (k := s.config.roundCap + 1) ⟨h, hp, hc⟩ (by omega)
    exact ⟨n, t, hn, hrun, he⟩
  · cases hs : s.schedState with
    | ended => exact ⟨0, s, Nat.zero_le _, rfl, hs⟩
    | init => exact absurd (h.beforeRounds hs).2 hc
    | running =>
      obtain ⟨m, u, hm, hrunm, hu, hrounds⟩ := h.finishes_round hs hc
      obtain ⟨-, -, hconfig, hlen⟩ := run_keeps h hp hrunm
      obtain ⟨t, n, -, hrun, hn, he⟩ := runRounds_ends (k := s.config.roundCap) hu (by rw [hconfig, hrounds]; omega)
      refine ⟨m + n, t, ?_, by rw [run_add _ _ hrunm, hrun], he⟩
      rw [hlen] at hn
      rw [Nat.succ_mul]
      omega

/-- Settles O45: the battle ends, in a state of the invariant. -/
theorem everyBattleEnds : Obligations.EveryBattleEnds := by
  intro s hinv hp
  obtain ⟨n, t, hn, hrun, he⟩ := hinv.ends hp
  exact ⟨n, t, hn, hrun, he, (run_ended_within_cap hinv hp hrun he).2⟩

/-! ## What INIT notifies and emits (R190, R215 to R217) -/

/-- Loading code from its byte `k` on notifies each byte once, in order. -/
theorem loadCode_notifications (s : State) (offset k : Nat) (code : List Byte) :
    (loadCode s (offset + k) code).notifications =
      if s.listener then
        s.notifications ++ (code.zipIdx k).map fun c =>
          ⟨translateAddr s.config s.config.rvSegment (offset + c.2), c.1, s.phase⟩
      else s.notifications := by
  induction code generalizing s k with
  | nil => simp [loadCode]
  | cons b bs ih =>
    rw [loadCode, Nat.add_assoc, ih]
    cases hl : s.listener <;> simp [hl]

/-- Loading every warrior's code notifies each byte once, in warrior and byte order. -/
theorem loadAll_notifications (s : State) (ws : List WarriorInput) :
    (loadAll s ws).notifications =
      if s.listener then
        s.notifications ++ ws.flatMap fun w => w.code.zipIdx.map fun c =>
          ⟨translateAddr s.config s.config.rvSegment (w.loadOffset.toNat + c.2), c.1, s.phase⟩
      else s.notifications := by
  induction ws generalizing s with
  | nil => simp [loadAll]
  | cons w ws ih =>
    have hcode := loadCode_notifications s w.loadOffset.toNat 0 w.code
    rw [Nat.add_zero] at hcode
    rw [loadAll, ih, hcode, loadCode_frame]
    cases hl : s.listener <;> simp

theorem births_eq_map_zipIdx (k : Nat) (ws : List WarriorInput) :
    births k ws = (ws.zipIdx k).map fun c => Event.birth c.2 c.1.label := by
  induction ws generalizing k with
  | nil => rfl
  | cons w ws ih => rw [births, ih, List.zipIdx_cons, List.map_cons]

/-- Settles O50: the notifications of the code loaded into the reset arena, and the births of INIT. -/
theorem initNotifiesAndEmits : Obligations.InitNotifiesAndEmits := by
  intro b s hne hsize hmode
  have hready := configure_ready s (setupError?_none.mpr ⟨hne, (arenaSize_pos hsize).ne', hmode⟩) hsize
  rw [initBattle_eq, births_eq_map_zipIdx] at hready
  exact ⟨_, hready, loadAll_notifications (s.resetFor b) b.warriors, rfl⟩

end Sys2Proof.Machine

namespace Sys2Proof.Machine

/-! ## What `configure` answers without INIT: a setup error or a refusal (R9, R212, R213) -/

/-- The setup check names an error only for a condition of R212 that holds. -/
theorem setupError?_some {b : Battle} {e : SetupError} (h : setupError? b = some e) :
    (e = .noWarriors ∧ b.warriors = []) ∨ (e = .zeroArenaSize ∧ b.config.arenaSize = 0) ∨
    (e = .unsupportedEncodingMode ∧ b.config.encodingMode = .legacy) := by
  unfold setupError? at h
  split at h
  next hne => exact .inl ⟨by simpa using h.symm, hne⟩
  next =>
    split at h
    next hsize => exact .inr (.inl ⟨by simpa using h.symm, hsize⟩)
    next =>
      split at h
      next hmode => exact .inr (.inr ⟨by simpa using h.symm, hmode⟩)
      next => exact absurd h (by simp)

/-- A battle for which one of R212's conditions holds has a setup error. -/
theorem setupError?_ne_none {b : Battle}
    (h : b.warriors = [] ∨ b.config.arenaSize = 0 ∨ b.config.encodingMode = .legacy) : setupError? b ≠ none := by
  intro hnone
  obtain ⟨hne, hpos, hmode⟩ := setupError?_none.mp hnone
  rcases h with h | h | h
  · exact hne h
  · exact hpos h
  · rw [hmode] at h
    exact absurd h (by decide)

theorem configure_setupError {b : Battle} {e : SetupError} (s : State) (h : setupError? b = some e) :
    configure b s = .next { s with pending := none, answer := some (.setupError e) } := by
  rw [configure, h]

theorem configure_refused {b : Battle} (s : State) (h : setupError? b = none) (hsize : ¬ sizeAdmitted b.config = true) :
    configure b s = .refused .arenaSizeNotAdmitted := by
  simp [configure, h, hsize]

/-- Settles O47: a condition of R212 gives a setup error, whose own condition holds; without one, the arena size is left
to the admission restriction (R9). -/
theorem setupErrorsChangeNothing : Obligations.SetupErrorsChangeNothing := by
  intro b s
  constructor
  · intro hcond
    obtain ⟨e, he⟩ := Option.ne_none_iff_exists'.mp (setupError?_ne_none hcond)
    refine ⟨e, configure_setupError s he, ?_⟩
    rcases setupError?_some he with ⟨rfl, h⟩ | ⟨rfl, h⟩ | ⟨rfl, h⟩
    · exact h
    · exact h
    · exact h
  · intro hne hpos hmode hdiv
    have hsize : ¬ sizeAdmitted b.config = true := fun h => hdiv (Nat.mod_eq_zero_of_dvd (arenaSize_dvd h))
    exact configure_refused s (setupError?_none.mpr ⟨hne, hpos, hmode⟩) hsize

end Sys2Proof.Machine
